-- ==== Sys2Proof/Word.lean ====
section
/-! DEFINITION. The one machine word: the 8-bit byte (00_scope.md R4, R7). Addresses are bytes too; BitVec arithmetic
is the spec's arithmetic modulo 256 (R42). -/

namespace Sys2Proof

/-- A cell of memory, an operand byte, an address: 8 bits, unsigned, wrapping modulo 256 (R7, R42). Bit 0 is the least
significant bit (R6). -/
abbrev Byte := BitVec 8

end Sys2Proof
end

