-- ==== Sys2Proof/Config.lean ====
section
/-! DEFINITION. The parameters 00_scope.md R5 leaves open, each with the values the spec lists. The configuration the
machine runs under is `Sys2Proof.config` (Decode.lean, where a later repair can reach it). -/

namespace Sys2Proof

/-- REG3_SUB (30_encoding.md R76): what the reserved first bytes 0xCB..0xCF decode to. -/
inductive Reg3Sub where
  | aliasA         -- SUB on register A
  | decodeFailure  -- a decode failure, skipped as a two-byte instruction
  deriving DecidableEq, Repr

/-- STORE_IMM_EA (40_step_and_addressing.md R100): the effective address of the IMMEDIATE mode, used by STORE only. -/
inductive StoreImmEA where
  | operandSlot   -- the location of the operand byte, (p + 1) mod 256
  | operandValue  -- the operand byte itself
  deriving DecidableEq, Repr

/-- PC_ADVANCE_BASE (40_step_and_addressing.md R95): what `AdvancePC(k)` adds k to. -/
inductive PcAdvanceBase where
  | currentCell  -- the contents of cell 3 after the instruction's other writes
  | fetchTime    -- the fetch-time program counter p
  deriving DecidableEq, Repr

/-- OC_WRITE (41_add_sub.md R113): what ADD and SUB do with bits 7:2 of a flag cell. -/
inductive OcWrite where
  | wholeByte   -- the whole cell is written, bits 7:2 become 0
  | bits10Only  -- bits 7:2 keep their old value
  deriving DecidableEq, Repr

/-- The values of the display-mode selector DM (10_state.md R21). -/
inductive DisplayMode where
  | input
  | address
  | memory
  | output
  deriving DecidableEq, Repr

/-- The parameters of R5. The defaults of the first four are the spec's (92_eei_decisions.md D4, D5, D6, D8; notes 1 to
4). The spec gives AR_RESET and DM_RESET no value ("unspecified (draw)"): the values here are the model's, DESIGN CHOICE,
notes 5 and 6. -/
structure Config where
  reg3Sub       : Reg3Sub       := .aliasA
  storeImmEA    : StoreImmEA    := .operandSlot
  pcAdvanceBase : PcAdvanceBase := .currentCell
  ocWrite       : OcWrite       := .wholeByte
  arReset       : Byte          := 0#8
  dmReset       : DisplayMode   := .input
  deriving DecidableEq, Repr

end Sys2Proof
end

