-- ==== Sys2Proof/Syntax.lean ====
section
/-! DEFINITION. The instructions as decoded values (10_state.md R22, 30_encoding.md R83): one constructor for each of the
19 instructions. The table's second SUB row (0xCB..0xCF) is another encoding of SUB A (R76, note 26). -/

namespace Sys2Proof

/-- The general registers (10_state.md R12). -/
inductive Reg where
  | a
  | b
  | x
  deriving DecidableEq, Repr

/-- The five addressing modes (30_encoding.md R68). -/
inductive AddrMode where
  | immediate
  | memory
  | indirect
  | indexed
  | indirectIndexed
  deriving DecidableEq, Repr

/-- The five jump conditions (30_encoding.md R70). -/
inductive Cond where
  | nonZero
  | zero
  | lessThanZero
  | positive
  | positiveNonZero
  deriving DecidableEq, Repr

/-- The register field of a jump: a tested register, or UNCONDITIONAL (30_encoding.md R64, R69). -/
inductive JumpTest where
  | reg (r : Reg)
  | unconditional
  deriving DecidableEq, Repr

/-- A decoded instruction. `operand` is the second byte as fetched (R71), `bit` the bit position (R73), `places` the
place count of a shift or rotate (R72). A jump keeps its condition field even when it is unconditional (R74, note 27). -/
inductive Instr where
  | halt
  | noop
  | sftr (r : Reg) (places : Nat)
  | rotr (r : Reg) (places : Nat)
  | sftl (r : Reg) (places : Nat)
  | rotl (r : Reg) (places : Nat)
  | set0 (bit : Nat) (operand : Byte)
  | set1 (bit : Nat) (operand : Byte)
  | skp0 (bit : Nat) (operand : Byte)
  | skp1 (bit : Nat) (operand : Byte)
  | jpd (test : JumpTest) (cond : Cond) (mode : AddrMode) (operand : Byte)
  | jmd (test : JumpTest) (cond : Cond) (mode : AddrMode) (operand : Byte)
  | or (mode : AddrMode) (operand : Byte)
  | and (mode : AddrMode) (operand : Byte)
  | lneg (mode : AddrMode) (operand : Byte)
  | add (r : Reg) (mode : AddrMode) (operand : Byte)
  | sub (r : Reg) (mode : AddrMode) (operand : Byte)
  | load (r : Reg) (mode : AddrMode) (operand : Byte)
  | store (r : Reg) (mode : AddrMode) (operand : Byte)
  deriving DecidableEq, Repr

end Sys2Proof
end

