-- ==== Sys2Proof/WellFormed.lean ====
section
/-! DEFINITION. Which instruction values an encoding exists for (30_encoding.md R83). The decoder gives no others. -/

namespace Sys2Proof

/-- X cannot be shifted or rotated: "A or B only" (10_state.md R13, 46_shift_rotate.md R160). -/
def Reg.shiftable : Reg → Bool
  | .a => true
  | .b => true
  | .x => false

/-- A shift or rotate moves 1 to 4 places (30_encoding.md R72). -/
def placesOk (places : Nat) : Bool := decide (1 ≤ places ∧ places ≤ 4)

/-- A bit position is 0 to 7 (30_encoding.md R73). -/
def bitOk (bit : Nat) : Bool := decide (bit < 8)

/-- Jumps use only MEMORY (direct) and INDIRECT (30_encoding.md R64, R68). -/
def AddrMode.jumpable : AddrMode → Bool
  | .immediate => false
  | .memory => true
  | .indirect => true
  | .indexed => false
  | .indirectIndexed => false

/-- The instruction value has an encoding. -/
def Instr.wellFormed : Instr → Bool
  | .halt => true
  | .noop => true
  | .sftr r places => r.shiftable && placesOk places
  | .rotr r places => r.shiftable && placesOk places
  | .sftl r places => r.shiftable && placesOk places
  | .rotl r places => r.shiftable && placesOk places
  | .set0 bit _ => bitOk bit
  | .set1 bit _ => bitOk bit
  | .skp0 bit _ => bitOk bit
  | .skp1 bit _ => bitOk bit
  | .jpd _ _ mode _ => mode.jumpable
  | .jmd _ _ mode _ => mode.jumpable
  | .or _ _ => true
  | .and _ _ => true
  | .lneg _ _ => true
  | .add _ _ _ => true
  | .sub _ _ _ => true
  | .load _ _ _ => true
  | .store _ _ _ => true

end Sys2Proof
end

