-- ==== Sys2Proof/Decode.lean ====
section
/-! DEFINITION. The instruction decoder (30_encoding.md R60 to R79), total on any bytes and rejecting by name, and after
it the encoder. `decodePair` is the spec's decode(b1, b2) (R74); `decodeWith` reads a list of bytes and leaves the rest.
The configuration the machine runs under stands here too, so that a repair can reach it. -/

namespace Sys2Proof

/-- The configuration the machine runs under: the spec's defaults (00_scope.md R5; notes 1 to 6). -/
def config : Config := {}

/-- Why a list of bytes gives no instruction. `reservedRegister3` is the spec's decode failure (R76, R78);
`noSuchFormat` stands for the clause "anything not matching any rule above is a decode failure", which no byte reaches
(R78); the other two say that a list is too short to hold an instruction, which a fetch never is (note 31). -/
inductive DecodeError where
  | reservedRegister3 (b1 : Byte)
  | noSuchFormat (b1 : Byte)
  | noBytes
  | operandMissing (b1 : Byte)
  deriving DecidableEq, Repr

/-! ### Fields of the first byte (R61 to R67) -/

/-- bits[2:0], the primary selector (R61). -/
def selectorField (b1 : Byte) : BitVec 3 := b1.extractLsb' 0 3

/-- bits[7:6]. -/
def registerField (b1 : Byte) : BitVec 2 := b1.extractLsb' 6 2

/-- bits[5:3]. -/
def bitField (b1 : Byte) : BitVec 3 := b1.extractLsb' 3 3

/-- bits[4:3]. -/
def opcodeField (b1 : Byte) : BitVec 2 := b1.extractLsb' 3 2

/-- bits[7:3]. -/
def highField (b1 : Byte) : BitVec 5 := b1.extractLsb' 3 5

/-- The length in bytes, from bits[2:0] alone: 1 for 000 and 001, else 2 (R60; the assumed width w of R92). -/
def instrWidth (b1 : Byte) : Nat :=
  if selectorField b1 = 0b000#3 ∨ selectorField b1 = 0b001#3 then 1 else 2

/-! ### Code tables (R68 to R73) -/

/-- R68. -/
def AddrMode.ofCode (c : BitVec 3) : Option AddrMode :=
  if c = 0b011#3 then some .immediate
  else if c = 0b100#3 then some .memory
  else if c = 0b101#3 then some .indirect
  else if c = 0b110#3 then some .indexed
  else if c = 0b111#3 then some .indirectIndexed
  else none

/-- R68. -/
def AddrMode.code : AddrMode → BitVec 3
  | .immediate => 0b011#3
  | .memory => 0b100#3
  | .indirect => 0b101#3
  | .indexed => 0b110#3
  | .indirectIndexed => 0b111#3

/-- R70. -/
def Cond.ofCode (c : BitVec 3) : Option Cond :=
  if c = 0b011#3 then some .nonZero
  else if c = 0b100#3 then some .zero
  else if c = 0b101#3 then some .lessThanZero
  else if c = 0b110#3 then some .positive
  else if c = 0b111#3 then some .positiveNonZero
  else none

/-- R70. -/
def Cond.code : Cond → BitVec 3
  | .nonZero => 0b011#3
  | .zero => 0b100#3
  | .lessThanZero => 0b101#3
  | .positive => 0b110#3
  | .positiveNonZero => 0b111#3

/-- Format AR, bits[7:6] (R69); 11 is not a register of its own (R75, R76). -/
def Reg.ofCode (c : BitVec 2) : Option Reg :=
  if c = 0b00#2 then some .a
  else if c = 0b01#2 then some .b
  else if c = 0b10#2 then some .x
  else none

/-- R69. -/
def Reg.code : Reg → BitVec 2
  | .a => 0b00#2
  | .b => 0b01#2
  | .x => 0b10#2

/-- Format J, bits[7:6]: 11 is UNCONDITIONAL (R64, R69). -/
def JumpTest.ofCode (c : BitVec 2) : JumpTest :=
  match Reg.ofCode c with
  | some r => .reg r
  | none => .unconditional

/-- R64, R69. -/
def JumpTest.code : JumpTest → BitVec 2
  | .reg r => r.code
  | .unconditional => 0b11#2

/-- Format SH, bit 5: 0 = A, 1 = B (R66). -/
def Reg.ofShiftBit (g : Bool) : Reg := if g then .b else .a

/-- R66. -/
def Reg.shiftBit : Reg → Bool
  | .a => false
  | .b => true
  | .x => false

/-! ### The formats (R62 to R67) -/

/-- Format Z, bits[2:0] = 000 (R67). Bits 6:3 are ignored (R77). -/
def decodeZ (b1 : Byte) : Instr := if b1.getLsbD 7 then .noop else .halt

/-- Format SH, bits[2:0] = 001 (R66): direction in bit 7, type in bit 6, places = bits[4:3] + 1 (R72, note
19). -/
def decodeShift (b1 : Byte) : Instr :=
  let r := Reg.ofShiftBit (b1.getLsbD 5)
  let places := (opcodeField b1).toNat + 1
  match b1.getLsbD 7, b1.getLsbD 6 with
  | false, false => .sftr r places
  | false, true => .rotr r places
  | true, false => .sftl r places
  | true, true => .rotl r places

/-- Format BT, bits[2:0] = 010 (R65): bit 7 set or skip, bit 6 the bit's value (polarity: note 10). -/
def decodeBit (b1 b2 : Byte) : Instr :=
  let bit := (bitField b1).toNat
  match b1.getLsbD 7, b1.getLsbD 6 with
  | false, false => .set0 bit b2
  | false, true => .set1 bit b2
  | true, false => .skp0 bit b2
  | true, true => .skp1 bit b2

/-- Format J, bit 5 = 1 (R64): bit 4 the mark flag, bit 3 the indirect flag. -/
def decodeJump (b1 b2 : Byte) : Except DecodeError Instr :=
  match Cond.ofCode (selectorField b1) with
  | none => .error (.noSuchFormat b1)
  | some c =>
    let test := JumpTest.ofCode (registerField b1)
    let mode := if b1.getLsbD 3 then AddrMode.indirect else AddrMode.memory
    .ok (if b1.getLsbD 4 then .jmd test c mode b2 else .jpd test c mode b2)

/-- Formats LG and AR, bit 5 = 0 (R62, R63, R75, R76). -/
def decodeOperation (c : Config) (b1 b2 : Byte) : Except DecodeError Instr :=
  match AddrMode.ofCode (selectorField b1) with
  | none => .error (.noSuchFormat b1)
  | some m =>
    if highField b1 = 0b11000#5 then .ok (.or m b2)
    else if highField b1 = 0b11010#5 then .ok (.and m b2)
    else if highField b1 = 0b11011#5 then .ok (.lneg m b2)
    else match Reg.ofCode (registerField b1) with
      | none =>
        match c.reg3Sub with
        | .aliasA => .ok (.sub .a m b2)
        | .decodeFailure => .error (.reservedRegister3 b1)
      | some r =>
        if opcodeField b1 = 0b00#2 then .ok (.add r m b2)
        else if opcodeField b1 = 0b01#2 then .ok (.sub r m b2)
        else if opcodeField b1 = 0b10#2 then .ok (.load r m b2)
        else .ok (.store r m b2)

/-- decode(b1, b2) of R74: bits[2:0] selects the format first (note 7). A one-byte instruction takes nothing from `b2`. -/
def decodePair (c : Config) (b1 b2 : Byte) : Except DecodeError Instr :=
  if selectorField b1 = 0b000#3 then .ok (decodeZ b1)
  else if selectorField b1 = 0b001#3 then .ok (decodeShift b1)
  else if selectorField b1 = 0b010#3 then .ok (decodeBit b1 b2)
  else if b1.getLsbD 5 then decodeJump b1 b2
  else decodeOperation c b1 b2

/-- The first instruction of a list of bytes and the bytes after it. A one-byte instruction's second byte is not
examined (R77). -/
def decodeWith (c : Config) : List Byte → Except DecodeError (Instr × List Byte)
  | [] => .error .noBytes
  | b1 :: rest =>
    if instrWidth b1 = 1 then
      match decodePair c b1 0#8 with
      | .ok i => .ok (i, rest)
      | .error e => .error e
    else
      match rest with
      | [] => .error (.operandMissing b1)
      | b2 :: rest' =>
        match decodePair c b1 b2 with
        | .ok i => .ok (i, rest')
        | .error e => .error e

/-- The decoder of the machine. -/
def decode (bytes : List Byte) : Except DecodeError (Instr × List Byte) := decodeWith config bytes

/-- The instruction of an opcode-table row: bits of `w` below `nbits`, first byte in bits 7..0, operand byte in bits
15..8, every bit above `nbits` zero. -/
def decodeTableWord (nbits w : Nat) : Option Instr :=
  match decode [BitVec.ofNat 8 (w % 2 ^ nbits), BitVec.ofNat 8 (w % 2 ^ nbits / 256)] with
  | .ok (i, _) => some i
  | .error _ => none

/-! ### The encoder, from the same format figures (R62 to R67)

`encode` gives 0x00 for HALT, 0x80 for NOOP, no register code 11 for SUB (R81), and for an unconditional jump the condition
the instruction carries, so that decoding gives it back (notes 26, 27). `encodeCanonical`, after it, gives the canonical
condition 011 too: it is R81 whole. -/

/-- A first byte from its fields bits[7:6], bits[5:3], bits[2:0] (R61). -/
def packFirst (hi : BitVec 2) (mid lo : BitVec 3) : Byte := hi ++ mid ++ lo

/-- Format SH: d t in bits 7:6, g and pp in bits 5:3. -/
def packShift (dt : BitVec 2) (r : Reg) (places : Nat) : Byte :=
  packFirst dt (BitVec.ofBool r.shiftBit ++ BitVec.ofNat 2 (places - 1)) 0b001#3

/-- Format J: bit 5 one, k in bit 4, i in bit 3. -/
def packJump (mark : Bool) (test : JumpTest) (cond : Cond) (mode : AddrMode) : Byte :=
  packFirst test.code (0b1#1 ++ BitVec.ofBool mark ++ BitVec.ofBool (mode == .indirect)) cond.code

/-- The first byte of an instruction. -/
def encodeFirst : Instr → Byte
  | .halt => 0x00#8
  | .noop => 0x80#8
  | .sftr r places => packShift 0b00#2 r places
  | .rotr r places => packShift 0b01#2 r places
  | .sftl r places => packShift 0b10#2 r places
  | .rotl r places => packShift 0b11#2 r places
  | .set0 bit _ => packFirst 0b00#2 (BitVec.ofNat 3 bit) 0b010#3
  | .set1 bit _ => packFirst 0b01#2 (BitVec.ofNat 3 bit) 0b010#3
  | .skp0 bit _ => packFirst 0b10#2 (BitVec.ofNat 3 bit) 0b010#3
  | .skp1 bit _ => packFirst 0b11#2 (BitVec.ofNat 3 bit) 0b010#3
  | .jpd test cond mode _ => packJump false test cond mode
  | .jmd test cond mode _ => packJump true test cond mode
  | .or mode _ => packFirst 0b11#2 0b000#3 mode.code
  | .and mode _ => packFirst 0b11#2 0b010#3 mode.code
  | .lneg mode _ => packFirst 0b11#2 0b011#3 mode.code
  | .add r mode _ => packFirst r.code 0b000#3 mode.code
  | .sub r mode _ => packFirst r.code 0b001#3 mode.code
  | .load r mode _ => packFirst r.code 0b010#3 mode.code
  | .store r mode _ => packFirst r.code 0b011#3 mode.code

/-- The operand byte of a two-byte instruction. -/
def operandOf : Instr → Option Byte
  | .halt => none
  | .noop => none
  | .sftr _ _ => none
  | .rotr _ _ => none
  | .sftl _ _ => none
  | .rotl _ _ => none
  | .set0 _ operand => some operand
  | .set1 _ operand => some operand
  | .skp0 _ operand => some operand
  | .skp1 _ operand => some operand
  | .jpd _ _ _ operand => some operand
  | .jmd _ _ _ operand => some operand
  | .or _ operand => some operand
  | .and _ operand => some operand
  | .lneg _ operand => some operand
  | .add _ _ operand => some operand
  | .sub _ _ operand => some operand
  | .load _ _ operand => some operand
  | .store _ _ operand => some operand

/-- The bytes of an instruction, first byte first (20_memory.md R44). -/
def encode (i : Instr) : List Byte := encodeFirst i :: (operandOf i).toList

/-- The condition of a jump's canonical encoding: "an unconditional jump uses ccc = 011" (R81). -/
def JumpTest.canonicalCond : JumpTest → Cond → Cond
  | .reg _, cond => cond
  | .unconditional, _ => .nonZero

/-- The instruction whose encoding is the canonical one (R81): only the ignored condition of an unconditional jump can
differ. -/
def canonical : Instr → Instr
  | .halt => .halt
  | .noop => .noop
  | .sftr r places => .sftr r places
  | .rotr r places => .rotr r places
  | .sftl r places => .sftl r places
  | .rotl r places => .rotl r places
  | .set0 bit operand => .set0 bit operand
  | .set1 bit operand => .set1 bit operand
  | .skp0 bit operand => .skp0 bit operand
  | .skp1 bit operand => .skp1 bit operand
  | .jpd test cond mode operand => .jpd test (test.canonicalCond cond) mode operand
  | .jmd test cond mode operand => .jmd test (test.canonicalCond cond) mode operand
  | .or mode operand => .or mode operand
  | .and mode operand => .and mode operand
  | .lneg mode operand => .lneg mode operand
  | .add r mode operand => .add r mode operand
  | .sub r mode operand => .sub r mode operand
  | .load r mode operand => .load r mode operand
  | .store r mode operand => .store r mode operand

/-- The canonical bytes of an instruction (R81). -/
def encodeCanonical (i : Instr) : List Byte := encode (canonical i)

/-! ### The opcode table (opcode_table.json), row by row in priority order (30_encoding.md section 7) -/

/-- The mnemonic of an instruction, as the opcode table spells it. -/
def mnemonicOf : Instr → String
  | .halt => "HALT"
  | .noop => "NOOP"
  | .sftr _ _ => "SFTR"
  | .rotr _ _ => "ROTR"
  | .sftl _ _ => "SFTL"
  | .rotl _ _ => "ROTL"
  | .set0 _ _ => "SET0"
  | .set1 _ _ => "SET1"
  | .skp0 _ _ => "SKP0"
  | .skp1 _ _ => "SKP1"
  | .jpd _ _ _ _ => "JPD"
  | .jmd _ _ _ _ => "JMD"
  | .or _ _ => "OR"
  | .and _ _ => "AND"
  | .lneg _ _ => "LNEG"
  | .add _ _ _ => "ADD"
  | .sub _ _ _ => "SUB"
  | .load _ _ _ => "LOAD"
  | .store _ _ _ => "STORE"

/-- A row of opcode_table.json: a first byte is the row's when `b1 & mask = value` and the constraints hold.
`operandSelector` is the constraint b1[2:0] >= 3, `registerNot3` the constraint b1[7:6] != 3. -/
structure OpcodeRow where
  mnemonic : String
  mask : Byte
  value : Byte
  operandSelector : Bool
  registerNot3 : Bool
  length : Nat
  deriving DecidableEq, Repr

/-- The first byte is one of the row's. -/
def OpcodeRow.holds (row : OpcodeRow) (b1 : Byte) : Bool :=
  decide (b1 &&& row.mask = row.value)
    && (!row.operandSelector || decide (3 ≤ (selectorField b1).toNat))
    && (!row.registerNot3 || decide (registerField b1 ≠ 0b11#2))

/-- The rows of opcode_table.json in its order. -/
def opcodeTable : List OpcodeRow :=
  [ ⟨"HALT", 0x87#8, 0x00#8, false, false, 1⟩,
    ⟨"NOOP", 0x87#8, 0x80#8, false, false, 1⟩,
    ⟨"SFTR", 0xC7#8, 0x01#8, false, false, 1⟩,
    ⟨"ROTR", 0xC7#8, 0x41#8, false, false, 1⟩,
    ⟨"SFTL", 0xC7#8, 0x81#8, false, false, 1⟩,
    ⟨"ROTL", 0xC7#8, 0xC1#8, false, false, 1⟩,
    ⟨"SET0", 0xC7#8, 0x02#8, false, false, 2⟩,
    ⟨"SET1", 0xC7#8, 0x42#8, false, false, 2⟩,
    ⟨"SKP0", 0xC7#8, 0x82#8, false, false, 2⟩,
    ⟨"SKP1", 0xC7#8, 0xC2#8, false, false, 2⟩ ]
  ++
  [ ⟨"JPD", 0x30#8, 0x20#8, true, false, 2⟩,
    ⟨"JMD", 0x30#8, 0x30#8, true, false, 2⟩,
    ⟨"OR", 0xF8#8, 0xC0#8, true, false, 2⟩,
    ⟨"AND", 0xF8#8, 0xD0#8, true, false, 2⟩,
    ⟨"LNEG", 0xF8#8, 0xD8#8, true, false, 2⟩,
    ⟨"SUB", 0xF8#8, 0xC8#8, true, false, 2⟩,
    ⟨"ADD", 0x38#8, 0x00#8, true, true, 2⟩,
    ⟨"SUB", 0x38#8, 0x08#8, true, true, 2⟩,
    ⟨"LOAD", 0x38#8, 0x10#8, true, true, 2⟩,
    ⟨"STORE", 0x38#8, 0x18#8, true, true, 2⟩ ]

end Sys2Proof
end

