-- ==== Sys2Proof/Machine/Memory.lean ====
section
/-! DEFINITION. The 256-cell memory (10_state.md R10, 20_memory.md R40, R41, R43) as a list of cells in one canonical
form: addresses strictly rising and below 256, no entry holding 0, which is what an unlisted address reads as (R30: the
memory is zero-initialized). Keys are natural numbers, so the source's guard against an address outside 0..255 is kept
(R43, note 22). -/

namespace Sys2Proof.Machine

/-- The listed cells. -/
abbrev Memory := List Host.Cell

/-- The number of cells (00_scope.md R4). -/
def memorySize : Nat := 256

/-- What an unlisted address reads as: 0, the reset contents of every cell (10_state.md R30). -/
def unlisted : Byte := 0#8

/-- The entries are in canonical form and every address is at least `lo`. -/
def Memory.wfFrom (lo : Nat) : Memory → Bool
  | [] => true
  | (k, v) :: m => decide (lo ≤ k) && decide (k < memorySize) && decide (v ≠ unlisted) && Memory.wfFrom (k + 1) m

/-- The canonical form: strictly rising addresses of the address space, no entry equal to what an unlisted address
reads as. -/
def Memory.wf (m : Memory) : Bool := Memory.wfFrom 0 m

/-- The first entry of an address, or what an unlisted address reads as. -/
def Memory.lookup : Memory → Nat → Byte
  | [], _ => unlisted
  | (k, v) :: m, a => if k = a then v else Memory.lookup m a

/-- The list without the entries of an address. -/
def Memory.erase (a : Nat) : Memory → Memory
  | [] => []
  | (k, v) :: m => if k = a then Memory.erase a m else (k, v) :: Memory.erase a m

/-- A new entry, before the first entry of a higher address. -/
def Memory.place (a : Nat) (v : Byte) : Memory → Memory
  | [] => [(a, v)]
  | (k, w) :: m => if a < k then (a, v) :: (k, w) :: m else (k, w) :: Memory.place a v m

/-- The source's `read(address)` (R41), with the guard of R43: outside 0..255 it "returns 0". -/
def Memory.read (m : Memory) (a : Nat) : Byte := if a < memorySize then m.lookup a else 0#8

/-- The source's `write(address, value)` (R41), with the guard of R43: outside 0..255 it "is a no-op". -/
def Memory.write (m : Memory) (a : Nat) (v : Byte) : Memory :=
  if a < memorySize then
    if v = unlisted then m.erase a else (m.erase a).place a v
  else m

end Sys2Proof.Machine
end

