-- ==== Sys2Proof/Machine/State.lean ====
section
/-! DEFINITION. The architectural state (10_state.md): the memory array, which contains every register (R10, R11), the
run state (R19) and the two host-side cells AR and DM (R20, R21). Nothing else persists between steps (R22, R23). -/

namespace Sys2Proof.Machine

/-- The run state RUN (10_state.md R19). -/
inductive RunState where
  | running
  | halted
  deriving DecidableEq, Repr

/-- The whole state. A, B, X, PC, OUT, the three flag cells and IN are cells of `mem` (R11: "named constants over the
single memory array, not ... separate fields"); their accessors are in Ops.lean. -/
structure State where
  mem : Memory
  run : RunState
  ar  : Byte
  dm  : DisplayMode
  deriving DecidableEq, Repr

/-- The reasons the machine can stop with a fault: none. "No error is fatal ...; the emulator always remains steppable"
(60_exceptions.md R180, note 28). -/
inductive Fault where
  deriving DecidableEq, Repr

/-- The reasons a step can be refused. -/
inductive Refusal where
  /-- Raised by an arm of `exec` that has no meaning yet; safe (the run stops). No arm raises it. -/
  | notModelled (mnemonic : String)
  deriving DecidableEq, Repr

/-- The state after construction under a configuration (70_reset_and_hazards.md R220, R221): every cell 0 (R30), HALTED
(R31), AR and DM the configuration's AR_RESET and DM_RESET (R32). -/
def State.resetIn (c : Config) : State :=
  { mem := [], run := .halted, ar := c.arReset, dm := c.dmReset }

/-- The machine right after reset. AR = 0 and DM = INPUT are the model's choice, DESIGN CHOICE, notes 5 and 6 (R32:
"not stated by the source"). -/
def State.reset : State := State.resetIn config

end Sys2Proof.Machine
end

