-- ==== Sys2Proof/Machine/Ops.lean ====
section
/-! DEFINITION. The named operations over memory and registers, the PC update, the fetch, and the one shared operation of
the only execution-time error, the decode failure (the hardware has no exception that traps and none to return from:
60_exceptions.md R180, R186, R187). -/

namespace Sys2Proof.Machine

/-! ### Memory and the register view (20_memory.md R41, 10_state.md R11) -/

/-- MemRead(a, 1). -/
def State.read (s : State) (a : Byte) : Byte := s.mem.read a.toNat

/-- MemWrite(a, 1, v): stores the byte and changes nothing else. -/
def State.write (s : State) (a v : Byte) : State := { s with mem := s.mem.write a.toNat v }

/-- idx(r): the address of a general register (10_state.md R12). -/
def regAddr : Reg → Byte
  | .a => 0#8
  | .b => 1#8
  | .x => 2#8

/-- The address of the program counter (10_state.md R14). -/
def pcAddr : Byte := 3#8

/-- The address of the Output register (10_state.md R16). -/
def outAddr : Byte := 128#8

/-- The address of the Overflow/Carry cell of a register: 129 + idx(r) (10_state.md R17; the pairing is note 13). -/
def flagAddr : Reg → Byte
  | .a => 129#8
  | .b => 130#8
  | .x => 131#8

/-- The address of the Input register (10_state.md R18). -/
def inAddr : Byte := 255#8

/-- x[r]. -/
def State.reg (s : State) (r : Reg) : Byte := s.read (regAddr r)

/-- x[r] <- v. -/
def State.setReg (s : State) (r : Reg) (v : Byte) : State := s.write (regAddr r) v

/-- pc; at the start of an instruction this is p, the fetch-time program counter (10_state.md R14). -/
def State.pc (s : State) : Byte := s.read pcAddr

/-- pc <- t. -/
def State.setPc (s : State) (t : Byte) : State := s.write pcAddr t

/-- OC[r]. -/
def State.flagCell (s : State) (r : Reg) : Byte := s.read (flagAddr r)

/-- OUT. -/
def State.out (s : State) : Byte := s.read outAddr

/-- IN. -/
def State.input (s : State) : Byte := s.read inAddr

/-- RUN <- HALTED (47_noop_halt.md R171). -/
def State.halt (s : State) : State := { s with run := .halted }

/-! ### The PC update (40_step_and_addressing.md R95, note 3) -/

/-- What AdvancePC adds to: the current contents of cell 3, or the fetch-time `p`. -/
def advanceBase (c : Config) (p : Byte) (s : State) : Byte :=
  match c.pcAdvanceBase with
  | .currentCell => s.pc
  | .fetchTime => p

/-- AdvancePC(k), the last action of an instruction that does not set the PC absolutely. -/
def advancePc (c : Config) (p k : Byte) (s : State) : State := s.setPc (advanceBase c p s + k)

/-! ### The fetch (R91, R92) -/

/-- The bytes of the instruction at the program counter: one or two by its width; the second comes from
(p + 1) mod 256 (note 9) and is not read for a one-byte instruction (note 18). -/
def fetch (s : State) : List Byte :=
  let b1 := s.read s.pc
  if instrWidth b1 = 1 then [b1] else [b1, s.read (s.pc + 1#8)]

/-! ### Errors (60_exceptions.md section 1) and diagnostics (R208, note 14) -/

/-- The three diagnostics of R208. That `decodeFailure` carries p and b1 is the spec's (40_step_and_addressing.md R94). That
`addressOutOfRange` carries the address and `illegalConsoleOperation` carries nothing is the model's, DESIGN CHOICE, note
32: R182, R183 and R208 name no recorded value for them. -/
inductive Diagnostic where
  | decodeFailure (p b1 : Byte)
  | addressOutOfRange (a : Nat)
  | illegalConsoleOperation
  deriving DecidableEq, Repr

/-- The whole effect of a decode failure (R94, R181): the PC advances by the assumed width, nothing else changes. -/
def skipUndecoded (c : Config) (s : State) : State :=
  advancePc c s.pc (BitVec.ofNat 8 (instrWidth (s.read s.pc))) s

/-- What a step reports: a decode failure with p and b1 (R94), or nothing. -/
def stepReport (c : Config) (s : State) : List Diagnostic :=
  match s.run with
  | .halted => []
  | .running =>
    match decodeWith c (fetch s) with
    | .ok _ => []
    | .error _ => [.decodeFailure s.pc (s.read s.pc)]

/-- What a memory access at an address, read or write, reports (20_memory.md R43, 60_exceptions.md R182); that the report
carries the address is the model's (note 32). -/
def accessReport (a : Nat) : List Diagnostic := if a < memorySize then [] else [.addressOutOfRange a]

end Sys2Proof.Machine
end

