-- ==== Sys2Proof/Machine/Flags.lean ====
section
/-! DEFINITION. The adder and its flags (41_add_sub.md R110, R113) and the jump conditions (44_jump.md R141). -/

namespace Sys2Proof.Machine

/-- What AddFlags(a, v) returns. -/
structure AdderOut where
  result : Byte
  carry : Bool
  overflow : Bool
  deriving DecidableEq, Repr

/-- AddFlags(a, v) (R110): the exact sum, 0..510, its low byte, "carry = unsigned sum > 255", and the two's-complement
overflow test on bit 7. -/
def addFlags (a v : Byte) : AdderOut :=
  let sum := a.toNat + v.toNat
  let res := BitVec.ofNat 8 sum
  { result := res, carry := decide (255 < sum), overflow := (a.msb == v.msb) && (a.msb != res.msb) }

/-- (carry << 1) | ovf: bit 0 overflow, bit 1 carry (10_state.md R17). -/
def flagByte (o : AdderOut) : Byte := BitVec.ofNat 8 (2 * o.carry.toNat + o.overflow.toNat)

/-- The byte stored into a flag cell that holds `old` (R113, note 4). -/
def flagCellValue (c : Config) (old : Byte) (o : AdderOut) : Byte :=
  match c.ocWrite with
  | .wholeByte => flagByte o
  | .bits10Only => (old &&& 0xFC#8) ||| flagByte o

/-- The flag-cell write of an ADD or SUB on register r (R113). -/
def writeFlags (c : Config) (r : Reg) (o : AdderOut) (s : State) : State :=
  s.write (flagAddr r) (flagCellValue c (s.flagCell r) o)

/-- The two's-complement negation (256 - v) mod 256 (41_add_sub.md R112, 43_and_or_lneg.md R132). -/
def negated (v : Byte) : Byte := BitVec.ofNat 8 (256 - v.toNat)

/-- The truth of a condition on the tested register's value (30_encoding.md R70). -/
def condHolds (k : Cond) (v : Byte) : Bool :=
  match k with
  | .nonZero => v != 0#8
  | .zero => v == 0#8
  | .lessThanZero => v.msb
  | .positive => !v.msb
  | .positiveNonZero => (v != 0#8) && !v.msb

/-- Whether a jump is taken (R141): no flag cell is consulted. -/
def jumpTaken (t : JumpTest) (k : Cond) (s : State) : Bool :=
  match t with
  | .reg r => condHolds k (s.reg r)
  | .unconditional => true

end Sys2Proof.Machine
end

