-- ==== Sys2Proof/Machine/Operands.lean ====
section
/-! DEFINITION. The addressing resolver (40_step_and_addressing.md R98 to R102) and the jump target (44_jump.md R140).
Reads only. -/

namespace Sys2Proof.Machine

/-- EV(mode, b2) (R98); X is an unsigned offset and sums wrap modulo 256 (R101). -/
def effectiveValue (m : AddrMode) (b : Byte) (s : State) : Byte :=
  match m with
  | .immediate => b
  | .memory => s.read b
  | .indirect => s.read (s.read b)
  | .indexed => s.read (b + s.reg .x)
  | .indirectIndexed => s.read (s.read b + s.reg .x)

/-- EA(mode, b2) (R99, R100): the IMMEDIATE row is the slot of the operand byte, (p + 1) mod 256, or the operand byte's
value, as STORE_IMM_EA says (note 2). -/
def effectiveAddress (c : Config) (m : AddrMode) (b : Byte) (s : State) : Byte :=
  match m with
  | .immediate =>
    match c.storeImmEA with
    | .operandSlot => s.pc + 1#8
    | .operandValue => b
  | .memory => b
  | .indirect => s.read b
  | .indexed => b + s.reg .x
  | .indirectIndexed => s.read b + s.reg .x

/-- The target of a jump: EA(MEMORY, b2) or EA(INDIRECT, b2) (R102, R140). -/
def jumpTarget (c : Config) (m : AddrMode) (b : Byte) (s : State) : Byte := effectiveAddress c m b s

end Sys2Proof.Machine
end

