-- ==== Sys2Proof/Machine/Arith.lean ====
section
/-! DEFINITION. ADD and SUB (41_add_sub.md). Each effect takes the configuration; the meaning runs it under the machine's. -/

namespace Sys2Proof.Machine

/-- x[r] <- res; OC[r] <- flags; AdvancePC(2), the shared tail of R111 and R112: `v` is the value added to x[r]. -/
def addToReg (c : Config) (r : Reg) (v : Byte) (s : State) : State :=
  advancePc c s.pc 2#8
    (writeFlags c r (addFlags (s.reg r) v) (s.setReg r (addFlags (s.reg r) v).result))

/-- R111 under any configuration. -/
def addIn (c : Config) (r : Reg) (m : AddrMode) (b : Byte) (s : State) : State :=
  addToReg c r (effectiveValue m b s) s

/-- R112 under any configuration: the addition of the negated operand, with that addition's flags. -/
def subIn (c : Config) (r : Reg) (m : AddrMode) (b : Byte) (s : State) : State :=
  addToReg c r (negated (effectiveValue m b s)) s

/-- ADD r, opnd (R111). -/
def execAdd (r : Reg) (m : AddrMode) (b : Byte) (s : State) : Host.Outcome State Fault Refusal :=
  .next (addIn config r m b s)

/-- SUB r, opnd (R112). -/
def execSub (r : Reg) (m : AddrMode) (b : Byte) (s : State) : Host.Outcome State Fault Refusal :=
  .next (subIn config r m b s)

end Sys2Proof.Machine
end

