-- ==== Sys2Proof/Machine/BitOps.lean ====
section
/-! DEFINITION. SKP0, SKP1, SET0 and SET1 (45_skip_set.md): the operand byte is the address of the memory byte. -/

namespace Sys2Proof.Machine

/-- The mask of one bit, 1 << k. -/
def bitMask (k : Nat) : Byte := 1#8 <<< k

/-- AdvancePC(4) when skipping, AdvancePC(2) when not (R150, R151). -/
def skipOn (c : Config) (skip : Bool) (s : State) : State :=
  advancePc c s.pc (if skip then 4#8 else 2#8) s

/-- MemWrite(n, 1, v); AdvancePC(2) (R152, R153). -/
def modifyByte (c : Config) (n v : Byte) (s : State) : State := advancePc c s.pc 2#8 (s.write n v)

/-- R150 under any configuration. -/
def skp0In (c : Config) (k : Nat) (n : Byte) (s : State) : State := skipOn c (!(s.read n).getLsbD k) s

/-- R151 under any configuration. -/
def skp1In (c : Config) (k : Nat) (n : Byte) (s : State) : State := skipOn c ((s.read n).getLsbD k) s

/-- R152 under any configuration. -/
def set0In (c : Config) (k : Nat) (n : Byte) (s : State) : State := modifyByte c n (s.read n &&& ~~~(bitMask k)) s

/-- R153 under any configuration. -/
def set1In (c : Config) (k : Nat) (n : Byte) (s : State) : State := modifyByte c n (s.read n ||| bitMask k) s

/-- SKP0 k, n (R150). -/
def execSkp0 (k : Nat) (n : Byte) (s : State) : Host.Outcome State Fault Refusal := .next (skp0In config k n s)

/-- SKP1 k, n (R151). -/
def execSkp1 (k : Nat) (n : Byte) (s : State) : Host.Outcome State Fault Refusal := .next (skp1In config k n s)

/-- SET0 k, n (R152). -/
def execSet0 (k : Nat) (n : Byte) (s : State) : Host.Outcome State Fault Refusal := .next (set0In config k n s)

/-- SET1 k, n (R153). -/
def execSet1 (k : Nat) (n : Byte) (s : State) : Host.Outcome State Fault Refusal := .next (set1In config k n s)

end Sys2Proof.Machine
end

