-- ==== Sys2Proof/Machine/Control.lean ====
section
/-! DEFINITION. NOOP and HALT (47_noop_halt.md). -/

namespace Sys2Proof.Machine

/-- R170 under any configuration. -/
def noopIn (c : Config) (s : State) : State := advancePc c s.pc 1#8 s

/-- R171 under any configuration: the PC still advances. -/
def haltIn (c : Config) (s : State) : State := advancePc c s.pc 1#8 s.halt

/-- NOOP (R170). -/
def execNoop (s : State) : Host.Outcome State Fault Refusal := .next (noopIn config s)

/-- HALT (R171). -/
def execHalt (s : State) : Host.Outcome State Fault Refusal := .next (haltIn config s)

end Sys2Proof.Machine
end

