-- ==== Sys2Proof/Machine/Jump.lean ====
section
/-! DEFINITION. JPD and JMD (44_jump.md). Target and condition are read before any write (R140, R141). -/

namespace Sys2Proof.Machine

/-- R142 under any configuration. -/
def jpdIn (c : Config) (t : JumpTest) (k : Cond) (m : AddrMode) (b : Byte) (s : State) : State :=
  if jumpTaken t k s then s.setPc (jumpTarget c m b s) else advancePc c s.pc 2#8 s

/-- R143 under any configuration: the link (p + 2) mod 256 goes to the target, execution to the byte after it. -/
def jmdIn (c : Config) (t : JumpTest) (k : Cond) (m : AddrMode) (b : Byte) (s : State) : State :=
  if jumpTaken t k s then (s.write (jumpTarget c m b s) (s.pc + 2#8)).setPc (jumpTarget c m b s + 1#8)
  else advancePc c s.pc 2#8 s

/-- JPD (R142). -/
def execJpd (t : JumpTest) (k : Cond) (m : AddrMode) (b : Byte) (s : State) : Host.Outcome State Fault Refusal :=
  .next (jpdIn config t k m b s)

/-- JMD (R143). -/
def execJmd (t : JumpTest) (k : Cond) (m : AddrMode) (b : Byte) (s : State) : Host.Outcome State Fault Refusal :=
  .next (jmdIn config t k m b s)

end Sys2Proof.Machine
end

