-- ==== Sys2Proof/Machine/Logic.lean ====
section
/-! DEFINITION. AND, OR and LNEG on register A, flags untouched (43_and_or_lneg.md). -/

namespace Sys2Proof.Machine

/-- x[A] <- v; AdvancePC(2). -/
def setAccumulator (c : Config) (v : Byte) (s : State) : State := advancePc c s.pc 2#8 (s.setReg .a v)

/-- R130 under any configuration. -/
def andIn (c : Config) (m : AddrMode) (b : Byte) (s : State) : State :=
  setAccumulator c (s.reg .a &&& effectiveValue m b s) s

/-- R131 under any configuration. -/
def orIn (c : Config) (m : AddrMode) (b : Byte) (s : State) : State :=
  setAccumulator c (s.reg .a ||| effectiveValue m b s) s

/-- R132 under any configuration. -/
def lnegIn (c : Config) (m : AddrMode) (b : Byte) (s : State) : State :=
  setAccumulator c (negated (effectiveValue m b s)) s

/-- AND opnd (R130). -/
def execAnd (m : AddrMode) (b : Byte) (s : State) : Host.Outcome State Fault Refusal := .next (andIn config m b s)

/-- OR opnd (R131). -/
def execOr (m : AddrMode) (b : Byte) (s : State) : Host.Outcome State Fault Refusal := .next (orIn config m b s)

/-- LNEG opnd (R132). -/
def execLneg (m : AddrMode) (b : Byte) (s : State) : Host.Outcome State Fault Refusal := .next (lnegIn config m b s)

end Sys2Proof.Machine
end

