-- ==== Sys2Proof/Machine/Shift.lean ====
section
/-! DEFINITION. SFTL, SFTR, ROTL and ROTR (46_shift_rotate.md): a single-place operation repeated `places` times (R160). -/

namespace Sys2Proof.Machine

/-- Bit 7 discarded, 0 enters at bit 0 (R161; the fill is note 11). -/
def shiftLeftOnce (v : Byte) : Byte := v <<< 1

/-- Bit 0 discarded, bit 7 keeps its value (R162). -/
def shiftRightOnce (v : Byte) : Byte := (v >>> 1) ||| (v &&& 0x80#8)

/-- Old bit 7 enters at bit 0 (R163). -/
def rotateLeftOnce (v : Byte) : Byte := (v <<< 1) ||| (v >>> 7)

/-- Old bit 0 enters at bit 7 (R164). -/
def rotateRightOnce (v : Byte) : Byte := (v >>> 1) ||| ((v &&& 1#8) <<< 7)

/-- An operation applied k times in succession (R160). -/
def repeated (f : Byte → Byte) : Nat → Byte → Byte
  | 0, v => v
  | k + 1, v => repeated f k (f v)

/-- x[r] <- f^k(x[r]); AdvancePC(1) (R160). -/
def shiftReg (c : Config) (f : Byte → Byte) (r : Reg) (places : Nat) (s : State) : State :=
  advancePc c s.pc 1#8 (s.setReg r (repeated f places (s.reg r)))

/-- R161 under any configuration. -/
def sftlIn (c : Config) (r : Reg) (places : Nat) (s : State) : State := shiftReg c shiftLeftOnce r places s

/-- R162 under any configuration. -/
def sftrIn (c : Config) (r : Reg) (places : Nat) (s : State) : State := shiftReg c shiftRightOnce r places s

/-- R163 under any configuration. -/
def rotlIn (c : Config) (r : Reg) (places : Nat) (s : State) : State := shiftReg c rotateLeftOnce r places s

/-- R164 under any configuration. -/
def rotrIn (c : Config) (r : Reg) (places : Nat) (s : State) : State := shiftReg c rotateRightOnce r places s

/-- SFTL r, k (R161). -/
def execSftl (r : Reg) (places : Nat) (s : State) : Host.Outcome State Fault Refusal := .next (sftlIn config r places s)

/-- SFTR r, k (R162). -/
def execSftr (r : Reg) (places : Nat) (s : State) : Host.Outcome State Fault Refusal := .next (sftrIn config r places s)

/-- ROTL r, k (R163). -/
def execRotl (r : Reg) (places : Nat) (s : State) : Host.Outcome State Fault Refusal := .next (rotlIn config r places s)

/-- ROTR r, k (R164). -/
def execRotr (r : Reg) (places : Nat) (s : State) : Host.Outcome State Fault Refusal := .next (rotrIn config r places s)

end Sys2Proof.Machine
end

