-- ==== Sys2Proof/Machine/Transfer.lean ====
section
/-! DEFINITION. LOAD and STORE (42_load_store.md). -/

namespace Sys2Proof.Machine

/-- R120 under any configuration. -/
def loadIn (c : Config) (r : Reg) (m : AddrMode) (b : Byte) (s : State) : State :=
  advancePc c s.pc 2#8 (s.setReg r (effectiveValue m b s))

/-- R121 under any configuration; a store to address 3 is followed by the AdvancePC (note 3). -/
def storeIn (c : Config) (r : Reg) (m : AddrMode) (b : Byte) (s : State) : State :=
  advancePc c s.pc 2#8 (s.write (effectiveAddress c m b s) (s.reg r))

/-- LOAD r, opnd (R120). -/
def execLoad (r : Reg) (m : AddrMode) (b : Byte) (s : State) : Host.Outcome State Fault Refusal :=
  .next (loadIn config r m b s)

/-- STORE r, opnd (R121). -/
def execStore (r : Reg) (m : AddrMode) (b : Byte) (s : State) : Host.Outcome State Fault Refusal :=
  .next (storeIn config r m b s)

end Sys2Proof.Machine
end

