-- ==== Sys2Proof/Machine/Dispatch.lean ====
section
/-! DEFINITION. The meaning of each instruction (40_step_and_addressing.md R93), one arm each. -/

namespace Sys2Proof.Machine

def exec (i : Instr) (s : State) : Host.Outcome State Fault Refusal :=
  match i with
  | .halt => Sys2Proof.Machine.execHalt s
  | .noop => Sys2Proof.Machine.execNoop s
  | .sftr r places => Sys2Proof.Machine.execSftr r places s
  | .rotr r places => Sys2Proof.Machine.execRotr r places s
  | .sftl r places => Sys2Proof.Machine.execSftl r places s
  | .rotl r places => Sys2Proof.Machine.execRotl r places s
  | .set0 bit operand => Sys2Proof.Machine.execSet0 bit operand s
  | .set1 bit operand => Sys2Proof.Machine.execSet1 bit operand s
  | .skp0 bit operand => Sys2Proof.Machine.execSkp0 bit operand s
  | .skp1 bit operand => Sys2Proof.Machine.execSkp1 bit operand s
  | .jpd test cond mode operand => Sys2Proof.Machine.execJpd test cond mode operand s
  | .jmd test cond mode operand => Sys2Proof.Machine.execJmd test cond mode operand s
  | .or mode operand => Sys2Proof.Machine.execOr mode operand s
  | .and mode operand => Sys2Proof.Machine.execAnd mode operand s
  | .lneg mode operand => Sys2Proof.Machine.execLneg mode operand s
  | .add r mode operand => Sys2Proof.Machine.execAdd r mode operand s
  | .sub r mode operand => Sys2Proof.Machine.execSub r mode operand s
  | .load r mode operand => Sys2Proof.Machine.execLoad r mode operand s
  | .store r mode operand => Sys2Proof.Machine.execStore r mode operand s

end Sys2Proof.Machine
end

