-- ==== Sys2Proof/Machine/Step.lean ====
section
/-! DEFINITION. One step trigger (40_step_and_addressing.md R90 to R94), and how the host places one instruction. -/

namespace Sys2Proof.Machine

/-- `step()`: nothing while HALTED (R90); while RUNNING, fetch, decode and run one instruction (R91 to R93), or skip the
bytes of a decode failure (R94). -/
def step (s : State) : Host.Outcome State Fault Refusal :=
  match s.run with
  | .halted => .next s
  | .running =>
    match decode (fetch s) with
    | .ok (i, _) => exec i s
    | .error _ => .next (skipUndecoded config s)

/-- `s` running, with an instruction's bytes at the program counter (note 20): the first byte in bits 7..0 of `w`, the
operand byte, where the instruction has one, in bits 15..8, zero above `nbits`. An instruction at address 2 or 3 would
lie on the PC cell itself, so there the program counter is first moved to 4. -/
def State.withFetchWord (s : State) (nbits w : Nat) : State :=
  let p := if s.pc = 2#8 ∨ s.pc = 3#8 then 4#8 else s.pc
  let b1 := BitVec.ofNat 8 (w % 2 ^ nbits)
  let b2 := BitVec.ofNat 8 (w % 2 ^ nbits / 256)
  let t := ({ s with run := .running }.setPc p).write p b1
  if instrWidth b1 = 1 then t else t.write (p + 1#8) b2

end Sys2Proof.Machine
end

