-- ==== Sys2Proof/Machine/Configured.lean ====
section
/-! DEFINITION. The machine under any configuration (00_scope.md R5: "a claim that must hold whatever the original
software did quantifies over both values"). `exec` and `step` are these at `Sys2Proof.config` (Laws/Step.lean). -/

namespace Sys2Proof.Machine

/-- The state an instruction leaves, under any configuration. -/
def effectIn (c : Config) (i : Instr) (s : State) : State :=
  match i with
  | .halt => haltIn c s
  | .noop => noopIn c s
  | .sftr r places => sftrIn c r places s
  | .rotr r places => rotrIn c r places s
  | .sftl r places => sftlIn c r places s
  | .rotl r places => rotlIn c r places s
  | .set0 bit operand => set0In c bit operand s
  | .set1 bit operand => set1In c bit operand s
  | .skp0 bit operand => skp0In c bit operand s
  | .skp1 bit operand => skp1In c bit operand s
  | .jpd test cond mode operand => jpdIn c test cond mode operand s
  | .jmd test cond mode operand => jmdIn c test cond mode operand s
  | .or mode operand => orIn c mode operand s
  | .and mode operand => andIn c mode operand s
  | .lneg mode operand => lnegIn c mode operand s
  | .add r mode operand => addIn c r mode operand s
  | .sub r mode operand => subIn c r mode operand s
  | .load r mode operand => loadIn c r mode operand s
  | .store r mode operand => storeIn c r mode operand s

/-- The state a step trigger leaves, under any configuration (40_step_and_addressing.md R90 to R94). -/
def stepIn (c : Config) (s : State) : State :=
  match s.run with
  | .halted => s
  | .running =>
    match decodeWith c (fetch s) with
    | .ok (i, _) => effectIn c i s
    | .error _ => skipUndecoded c s

end Sys2Proof.Machine
end

