-- ==== Sys2Proof/Machine/Console.lean ====
section
/-! DEFINITION. The host interface (60_exceptions.md section 4): the operations the console may call between steps, the
step trigger beside them, and the traces they form (20_memory.md R51). -/

namespace Sys2Proof.Machine

/-- The public operations of R194 to R203, and a program load by other means (R205, R206, note 30). -/
inductive ConsoleOp where
  | start
  | stop
  | writeInputRegister (v : Byte)
  | toggleInputBit (n : Nat)
  | clearInputRegister
  | setAddressRegister
  | getAddressRegister
  | readMemoryAtAddressRegister
  | storeInputToAddressRegister
  | snapshot
  | loadCell (a v : Byte)
  deriving DecidableEq, Repr

/-- What `snapshot()` returns (R203). -/
structure Snapshot where
  memory : List Byte
  isRunning : Bool
  addressRegister : Byte
  displayMode : DisplayMode
  deriving DecidableEq, Repr

/-- What an operation returns. `callRefused` is the model's: a call the source gives no behaviour for (R197, U10, note
23), refused with the state unchanged; safe, since the model admits fewer calls. -/
inductive Reply where
  | done
  | byte (v : Byte)
  | snap (x : Snapshot)
  | illegalConsoleOperation
  | callRefused
  deriving DecidableEq, Repr

/-- The state and the answer after an operation. -/
structure Answer where
  state : State
  reply : Reply
  deriving DecidableEq, Repr

/-- An operation that is refused while RUNNING (R183): the state is unchanged then. -/
def onlyHalted (s : State) (a : Answer) : Answer :=
  match s.run with
  | .running => { state := s, reply := .illegalConsoleOperation }
  | .halted => a

/-- The copy `snapshot()` returns (R203). -/
def State.snapshot (s : State) : Snapshot :=
  { memory := (List.range memorySize).map (fun a => s.read (BitVec.ofNat 8 a))
    isRunning := s.run == .running
    addressRegister := s.ar
    displayMode := s.dm }

/-- `start()` (R194): the PC is not reset. -/
def startOp (s : State) : Answer := { state := { s with run := .running }, reply := .done }

/-- `stop()` (R195). -/
def stopOp (s : State) : Answer := { state := { s with run := .halted }, reply := .done }

/-- `writeInputRegister(byte)` (R196), in both run states (note 16). -/
def writeInputOp (v : Byte) (s : State) : Answer := { state := s.write inAddr v, reply := .done }

/-- `toggleInputBit(n)` (R197); n outside 0..7 is refused (note 23). -/
def toggleInputOp (n : Nat) (s : State) : Answer :=
  if n < 8 then { state := s.write inAddr (s.input ^^^ (1#8 <<< n)), reply := .done }
  else { state := s, reply := .callRefused }

/-- `clearInputRegister()` (R198). -/
def clearInputOp (s : State) : Answer := { state := s.write inAddr 0#8, reply := .done }

/-- `setAddressRegister()` (R199; refused while RUNNING, note 15). -/
def setAddressOp (s : State) : Answer :=
  onlyHalted s { state := { s with ar := s.input }, reply := .done }

/-- `getAddressRegister()` (R200). -/
def getAddressOp (s : State) : Answer := { state := s, reply := .byte s.ar }

/-- `readMemoryAtAddressRegister()` (R201). -/
def readMemoryOp (s : State) : Answer :=
  onlyHalted s { state := { s with ar := s.ar + 1#8 }, reply := .byte (s.read s.ar) }

/-- `storeInputToAddressRegister()` (R202). -/
def storeInputOp (s : State) : Answer :=
  onlyHalted s { state := { s.write s.ar s.input with ar := s.ar + 1#8 }, reply := .done }

/-- `snapshot()` (R203). -/
def snapshotOp (s : State) : Answer := { state := s, reply := .snap s.snapshot }

/-- One cell of a program load by other means, while HALTED (R205, R206; note 30). -/
def loadCellOp (a v : Byte) (s : State) : Answer :=
  onlyHalted s { state := s.write a v, reply := .done }

/-- The console operation, between steps. -/
def consoleOp (op : ConsoleOp) (s : State) : Answer :=
  match op with
  | .start => startOp s
  | .stop => stopOp s
  | .writeInputRegister v => writeInputOp v s
  | .toggleInputBit n => toggleInputOp n s
  | .clearInputRegister => clearInputOp s
  | .setAddressRegister => setAddressOp s
  | .getAddressRegister => getAddressOp s
  | .readMemoryAtAddressRegister => readMemoryOp s
  | .storeInputToAddressRegister => storeInputOp s
  | .snapshot => snapshotOp s
  | .loadCell a v => loadCellOp a v s

/-- What an operation reports (R183, R208). -/
def consoleReport (op : ConsoleOp) (s : State) : List Diagnostic :=
  if (consoleOp op s).reply = .illegalConsoleOperation then [.illegalConsoleOperation] else []

/-- What the outside can do to the machine between two states (R206): trigger a step or call an operation. -/
inductive HostEvent where
  | trigger
  | console (op : ConsoleOp)
  deriving DecidableEq, Repr

/-- The state after an event. A step never stops (R180); if it did, the event would leave the state as it was. -/
def afterEvent (e : HostEvent) (s : State) : State :=
  match e with
  | .trigger =>
    match step s with
    | .next t => t
    | .fault _ => s
    | .refused _ => s
  | .console op => (consoleOp op s).state

/-- The state after a sequence of events, first event first. -/
def afterEvents : List HostEvent → State → State
  | [], s => s
  | e :: es, s => afterEvents es (afterEvent e s)

/-- The operations that enter a byte by hand (R202): set IN, then store it and step AR. -/
def enterByte (v : Byte) : List HostEvent :=
  [.console (.writeInputRegister v), .console .storeInputToAddressRegister]

/-- Entering a program by hand at an address (R202): set IN, `setAddressRegister()`, then each byte. -/
def enterProgram (a : Byte) (bytes : List Byte) : List HostEvent :=
  [.console (.writeInputRegister a), .console .setAddressRegister] ++ bytes.flatMap enterByte

end Sys2Proof.Machine
end

