-- ==== Sys2Proof/Safety.lean ====
section
/-! DEFINITION. What counts as a safe run, and the words the statements use: the invariant, which cells an instruction
may write, which forms rest on a parameter of 00_scope.md R5. -/

namespace Sys2Proof.Machine

/-- The invariant of every state: memory is in its canonical form, so that two states with the same 256 cells, run
state, AR and DM are the same data. -/
abbrev State.Inv (s : State) : Prop := s.mem.wf = true

/-- Every cell outside `cells` reads in `t` as it reads in `s`. -/
def OnlyCellsChange (cells : List Byte) (s t : State) : Prop := ∀ a : Byte, a ∉ cells → t.read a = s.read a

/-- The state outside memory is the same: RUN, AR and DM. -/
def SameControl (s t : State) : Prop := t.run = s.run ∧ t.ar = s.ar ∧ t.dm = s.dm

/-- A run of k triggers ends in a state: it never stops with a fault or a refusal (60_exceptions.md R180). -/
def RunsSafely (s : State) : Prop := ∀ k : Nat, ∃ t, Host.Core.run Sys2Proof.core k s = .next t

/-- The address an instruction stores to as data, by its operand: STORE, SET0, SET1 and a taken JMD (42 R121, 45 R152,
R153, 44 R143). -/
def storedAddress (c : Config) (i : Instr) (s : State) : Option Byte :=
  match i with
  | .store _ m b => some (effectiveAddress c m b s)
  | .set0 _ b => some b
  | .set1 _ b => some b
  | .jmd t k m b => if jumpTaken t k s then some (jumpTarget c m b s) else none
  | .halt => none
  | .noop => none
  | .sftr _ _ => none
  | .rotr _ _ => none
  | .sftl _ _ => none
  | .rotl _ _ => none
  | .skp0 _ _ => none
  | .skp1 _ _ => none
  | .jpd _ _ _ _ => none
  | .or _ _ => none
  | .and _ _ => none
  | .lneg _ _ => none
  | .add _ _ _ => none
  | .sub _ _ _ => none
  | .load _ _ _ => none

/-- The general register an instruction writes (10_state.md R13). -/
def destination (i : Instr) : Option Reg :=
  match i with
  | .add r _ _ => some r
  | .sub r _ _ => some r
  | .load r _ _ => some r
  | .and _ _ => some .a
  | .or _ _ => some .a
  | .lneg _ _ => some .a
  | .sftl r _ => some r
  | .sftr r _ => some r
  | .rotl r _ => some r
  | .rotr r _ => some r
  | .store _ _ _ => none
  | .set0 _ _ => none
  | .set1 _ _ => none
  | .skp0 _ _ => none
  | .skp1 _ _ => none
  | .jpd _ _ _ _ => none
  | .jmd _ _ _ _ => none
  | .halt => none
  | .noop => none

/-- The register whose flag cell an instruction writes: ADD and SUB, their target register (10_state.md R17). -/
def flagsOf (i : Instr) : Option Reg :=
  match i with
  | .add r _ _ => some r
  | .sub r _ _ => some r
  | .load _ _ _ => none
  | .and _ _ => none
  | .or _ _ => none
  | .lneg _ _ => none
  | .sftl _ _ => none
  | .sftr _ _ => none
  | .rotl _ _ => none
  | .rotr _ _ => none
  | .store _ _ _ => none
  | .set0 _ _ => none
  | .set1 _ _ => none
  | .skp0 _ _ => none
  | .skp1 _ _ => none
  | .jpd _ _ _ _ => none
  | .jmd _ _ _ _ => none
  | .halt => none
  | .noop => none

/-- The cells an instruction may write: its destination register, that register's flag cell, the address it stores to,
and the program counter. -/
def writtenCells (c : Config) (i : Instr) (s : State) : List Byte :=
  (destination i).toList.map regAddr ++ (flagsOf i).toList.map flagAddr ++ (storedAddress c i s).toList ++ [pcAddr]

/-- The instruction is a jump, and it is taken in `s`. -/
def jumps (i : Instr) (s : State) : Bool :=
  match i with
  | .jpd t k _ _ => jumpTaken t k s
  | .jmd t k _ _ => jumpTaken t k s
  | .halt => false
  | .noop => false
  | .sftr _ _ => false
  | .rotr _ _ => false
  | .sftl _ _ => false
  | .rotl _ _ => false
  | .set0 _ _ => false
  | .set1 _ _ => false
  | .skp0 _ _ => false
  | .skp1 _ _ => false
  | .or _ _ => false
  | .and _ _ => false
  | .lneg _ _ => false
  | .add _ _ _ => false
  | .sub _ _ _ => false
  | .load _ _ _ => false
  | .store _ _ _ => false

/-- The first bytes 0xCB..0xCF, register code 11 with SUB (30_encoding.md R76). -/
def reservedByte (b1 : Byte) : Bool := decide (0xCB ≤ b1.toNat ∧ b1.toNat ≤ 0xCF)

/-- The forms on which a parameter other than REG3_SUB bears (92_eei_decisions.md, notes for the model builder): STORE
in IMMEDIATE mode, STORE, SET0 and SET1 that reach address 3, ADD and SUB when the flag cell holds bits 7:2. -/
def parameterForm (i : Instr) (s : State) : Bool :=
  match i with
  | .store _ m b => (m == .immediate) || (effectiveAddress config m b s == pcAddr)
  | .set0 _ b => b == pcAddr
  | .set1 _ b => b == pcAddr
  | .add r _ _ => (s.flagCell r) >>> 2 != 0#8
  | .sub r _ _ => (s.flagCell r) >>> 2 != 0#8
  | .halt => false
  | .noop => false
  | .sftr _ _ => false
  | .rotr _ _ => false
  | .sftl _ _ => false
  | .rotl _ _ => false
  | .skp0 _ _ => false
  | .skp1 _ _ => false
  | .or _ _ => false
  | .and _ _ => false
  | .lneg _ _ => false
  | .load _ _ _ => false
  | .jpd _ _ _ _ => false
  | .jmd _ _ _ _ => false

end Sys2Proof.Machine
end

