-- ==== Sys2Proof/Certificates/Slice0/Obligations.lean ====
section
/-! DEFINITION. The statements for the provers, in the spec's order: reset and memory, encoding, the step, the resolver
and the adder, each instruction with its frame, the whole machine, the host interface. A docstring names the rule a
statement formalises; where a clause rests on a decision of the spec or of the model it names the note. -/

open Sys2Proof Sys2Proof.Machine

/-! ### Reset, state and memory -/

/-- 10_state.md R30, R31: after construction, whatever AR and DM are drawn, every cell and so every register is 0 and
RUN = HALTED; `State.reset` is such a state. -/
def Obligations.ResetCellsAreZeroAndHalted : Prop :=
  (∀ (c : Config) (a : Byte), (State.resetIn c).read a = 0#8) ∧
  (∀ (c : Config) (r : Reg), (State.resetIn c).reg r = 0#8 ∧ (State.resetIn c).flagCell r = 0#8) ∧
  (∀ c : Config, (State.resetIn c).pc = 0#8 ∧ (State.resetIn c).out = 0#8 ∧ (State.resetIn c).input = 0#8 ∧
    (State.resetIn c).run = .halted) ∧
  State.reset = State.resetIn config

/-- The reset state meets the invariant, under every configuration. -/
def Obligations.ResetMemoryIsCanonical : Prop := State.reset.Inv ∧ ∀ c : Config, (State.resetIn c).Inv

/-- From every state with canonical memory, a step gives a state with canonical memory, under every configuration. -/
def Obligations.StepKeepsCanonicalMemory : Prop :=
  (∀ s t : State, s.Inv → step s = .next t → t.Inv) ∧ (∀ (c : Config) (s : State), s.Inv → (stepIn c s).Inv)

/-- Every sequence of triggers and console operations keeps memory canonical. -/
def Obligations.EventSequencesKeepCanonicalMemory : Prop :=
  ∀ (es : List HostEvent) (s : State), s.Inv → (afterEvents es s).Inv

/-- Two canonical memories that read the same at every address of the address space are the same list. -/
def Obligations.CanonicalMemoriesEqualWhenReadsAgree : Prop :=
  ∀ m m' : Memory, m.wf = true → m'.wf = true → (∀ a : Byte, m.read a.toNat = m'.read a.toNat) → m = m'

/-- 20_memory.md R41: a write stores the byte and changes nothing else; a repeated write of what is there changes
nothing at all, writes to two cells commute, and the last write to a cell counts. -/
def Obligations.MemoryWriteStoresOneByte : Prop :=
  (∀ (s : State) (a v : Byte), (s.write a v).read a = v ∧ OnlyCellsChange [a] s (s.write a v) ∧
    SameControl s (s.write a v)) ∧
  (∀ (s : State) (a : Byte), s.Inv → s.write a (s.read a) = s) ∧
  (∀ (s : State) (a b v w : Byte), s.Inv → a ≠ b → (s.write a v).write b w = (s.write b w).write a v) ∧
  (∀ (s : State) (a v w : Byte), s.Inv → (s.write a v).write a w = s.write a w)

/-- 20_memory.md R43, 60_exceptions.md R182: outside 0..255 a read returns 0, a write is ignored, a warning is logged;
no 8-bit address is outside. That the warning carries the address is the model's choice (note 32). -/
def Obligations.AddressOutOfRangeIsHarmless : Prop :=
  (∀ (m : Memory) (a : Nat) (v : Byte), 256 ≤ a →
    m.read a = 0#8 ∧ m.write a v = m ∧ accessReport a = [.addressOutOfRange a]) ∧
  (∀ a : Byte, accessReport a.toNat = [])

/-- 10_state.md R11: reading or writing a register is reading or writing its memory cell (the pairing of the flag cells
is note 13). -/
def Obligations.RegistersAreMemoryCells : Prop :=
  ∀ (s : State) (v : Byte),
    (s.reg .a = s.read 0#8 ∧ s.reg .b = s.read 1#8 ∧ s.reg .x = s.read 2#8 ∧ s.pc = s.read 3#8 ∧
      s.out = s.read 128#8 ∧ s.flagCell .a = s.read 129#8 ∧ s.flagCell .b = s.read 130#8 ∧
      s.flagCell .x = s.read 131#8 ∧ s.input = s.read 255#8) ∧
    ((s.write 0#8 v).reg .a = v ∧ (s.write 1#8 v).reg .b = v ∧ (s.write 2#8 v).reg .x = v ∧ (s.write 3#8 v).pc = v ∧
      (s.write 128#8 v).out = v ∧ (s.write 129#8 v).flagCell .a = v ∧ (s.write 130#8 v).flagCell .b = v ∧
      (s.write 131#8 v).flagCell .x = v ∧ (s.write 255#8 v).input = v) ∧
    (s.setReg .a v = s.write 0#8 v ∧ s.setReg .b v = s.write 1#8 v ∧ s.setReg .x v = s.write 2#8 v ∧
      s.setPc v = s.write 3#8 v)

/-! ### Encoding -/

/-- Decoding the encoding of a well-formed instruction gives it back and leaves the bytes after it, under every
configuration. -/
def Obligations.DecodeEncodeRoundTrip : Prop :=
  ∀ (c : Config) (i : Instr) (rest : List Byte), i.wellFormed = true → decodeWith c (encode i ++ rest) = .ok (i, rest)

/-- What the decoder gives is well formed, and apart from the ignored bits of format Z and the reserved SUB bytes it
encodes back to the bytes it was read from (30_encoding.md R77; the encoder's choice there is note 26). -/
def Obligations.EncodeGivesBackTheBytes : Prop :=
  ∀ (c : Config) (b1 b2 : Byte) (i : Instr), decodePair c b1 b2 = .ok i →
    i.wellFormed = true ∧
    (selectorField b1 ≠ 0#3 → reservedByte b1 = false →
      encode i = if instrWidth b1 = 1 then [b1] else [b1, b2])

/-- 30_encoding.md R76, R78 (the reading of register code 11 is note 1, the format selection notes 7 and 8): a byte
pair fails to decode exactly when the first byte is 0xCB..0xCF and REG3_SUB = DecodeFailure; under AliasA those bytes
decode as 0x0B..0x0F do. -/
def Obligations.DecodeFailsOnlyOnReservedBytes : Prop :=
  (∀ (c : Config) (b1 b2 : Byte),
    (∃ e, decodePair c b1 b2 = .error e) ↔ (c.reg3Sub = .decodeFailure ∧ reservedByte b1 = true)) ∧
  (∀ (c : Config) (b1 b2 : Byte), c.reg3Sub = .aliasA → reservedByte b1 = true →
    decodePair c b1 b2 = decodePair c (b1 &&& 0x0F#8) b2) ∧
  config.reg3Sub = .aliasA

/-- 30_encoding.md R71, R74: the second byte only fills the operand field, as fetched; which instruction it is depends
on the first byte alone. -/
def Obligations.OperandByteIsCopiedUnchanged : Prop :=
  ∀ (c : Config) (b1 b2 : Byte) (i : Instr), decodePair c b1 b2 = .ok i →
    operandOf i = (if instrWidth b1 = 1 then none else some b2) ∧
    ∀ b2' : Byte, ∃ i', decodePair c b1 b2' = .ok i' ∧ encodeFirst i' = encodeFirst i ∧ mnemonicOf i' = mnemonicOf i

/-- 30_encoding.md section 7: every first byte belongs to exactly one row of the opcode table, the row's length is the
length rule's, and the decoder gives the row's instruction. -/
def Obligations.EveryFirstByteHasOneOpcodeRow : Prop :=
  ∀ b1 b2 : Byte, ∃ row, opcodeTable.filter (fun r => r.holds b1) = [row] ∧ row.length = instrWidth b1 ∧
    ∃ i, decodePair config b1 b2 = .ok i ∧ mnemonicOf i = row.mnemonic

/-- Words of the spec's decode table (95_test_vectors.md 2.1), one or more of each format. -/
def Obligations.SpecWordsDecode : Prop :=
  decode [0x78#8] = .ok (.halt, []) ∧ decode [0xE0#8] = .ok (.noop, []) ∧
  decode [0x39#8] = .ok (.sftr .b 4, []) ∧ decode [0x41#8] = .ok (.rotr .a 1, []) ∧
  decode [0xA1#8] = .ok (.sftl .b 1, []) ∧ decode [0xD9#8] = .ok (.rotl .a 4, []) ∧
  decode [0x3A#8, 0x80#8] = .ok (.set0 7 0x80#8, []) ∧ decode [0x6A#8, 0x80#8] = .ok (.set1 5 0x80#8, []) ∧
  decode [0xBA#8, 0x60#8] = .ok (.skp0 7 0x60#8, []) ∧ decode [0xC2#8, 0x80#8] = .ok (.skp1 0 0x80#8, []) ∧
  decode [0x65#8, 0x40#8] = .ok (.jpd (.reg .b) .lessThanZero .memory 0x40#8, []) ∧
  decode [0xEB#8, 0x40#8] = .ok (.jpd .unconditional .nonZero .indirect 0x40#8, []) ∧
  decode [0x3F#8, 0x40#8] = .ok (.jmd (.reg .a) .positiveNonZero .indirect 0x40#8, []) ∧
  decode [0xC7#8, 0x20#8] = .ok (.or .indirectIndexed 0x20#8, []) ∧ decode [0xD4#8, 0x60#8] = .ok (.and .memory 0x60#8, []) ∧
  decode [0xDB#8, 0x01#8] = .ok (.lneg .immediate 0x01#8, []) ∧ decode [0x84#8, 0x05#8] = .ok (.add .x .memory 0x05#8, []) ∧
  decode [0x8E#8, 0x20#8] = .ok (.sub .x .indexed 0x20#8, []) ∧ decode [0x55#8, 0x20#8] = .ok (.load .b .indirect 0x20#8, []) ∧
  decode [0x9F#8, 0x20#8] = .ok (.store .x .indirectIndexed 0x20#8, [])

/-- 30_encoding.md R60: the length is 1 byte if bits[2:0] are 000 or 001, else 2; the decoder takes that many bytes off
the front and leaves the rest as it is. -/
def Obligations.LengthFromLowThreeBits : Prop :=
  (∀ b1 : Byte, instrWidth b1 = if b1.toNat % 8 = 0 ∨ b1.toNat % 8 = 1 then 1 else 2) ∧
  (∀ (c : Config) (bytes rest : List Byte) (i : Instr), decodeWith c bytes = .ok (i, rest) →
    ∃ b1, bytes.head? = some b1 ∧ bytes.drop (instrWidth b1) = rest ∧ bytes.length = instrWidth b1 + rest.length)

/-! ### The step -/

/-- 40_step_and_addressing.md R90 to R94: nothing while HALTED; while RUNNING, the step is the instruction that the
bytes at p and (p + 1) mod 256 decode to (the wrap at p = 255 is note 9), or, under a configuration where they do not
decode, the skip of a decode failure. -/
def Obligations.StepRunsDecodedInstruction : Prop :=
  ∀ s : State,
    (s.run = .halted → step s = .next s) ∧
    (s.run = .running → ∀ (i : Instr) (rest : List Byte),
      decode [s.read s.pc, s.read (s.pc + 1#8)] = .ok (i, rest) → step s = exec i s) ∧
    (s.run = .running → ∀ (c : Config) (e : DecodeError),
      decodeWith c [s.read s.pc, s.read (s.pc + 1#8)] = .error e → stepIn c s = skipUndecoded c s)

/-- A RUNNING machine whose memory holds the encoding of a well-formed instruction at the program counter runs exactly
that instruction (addresses wrap: note 9). -/
def Obligations.EncodedInstructionAtPcRuns : Prop :=
  ∀ (i : Instr) (s : State), i.wellFormed = true → s.run = .running →
    (∀ (k : Nat) (h : k < (encode i).length), s.read (s.pc + BitVec.ofNat 8 k) = (encode i)[k]) →
    step s = exec i s

/-- 40_step_and_addressing.md R90, 60_exceptions.md R193: any number of triggers leaves a HALTED machine as it is, under
every configuration. -/
def Obligations.HaltedMachineKeepsItsState : Prop :=
  ∀ s : State, s.run = .halted →
    (∀ k : Nat, Host.Core.run Sys2Proof.core k s = .next s) ∧ (∀ c : Config, stepIn c s = s)

/-- 60_exceptions.md R180: "the emulator always remains steppable": from every state, any number of triggers ends in a
state, never in a fault or a refusal. -/
def Obligations.MachineAlwaysRemainsSteppable : Prop := ∀ s : State, RunsSafely s

/-- 40_step_and_addressing.md R94, 60_exceptions.md R181: a decode failure reports p and b1, advances the PC by the
assumed width and changes nothing else; it happens only under REG3_SUB = DecodeFailure, on 0xCB..0xCF, with width 2. -/
def Obligations.DecodeFailureIsSkipped : Prop :=
  ∀ (c : Config) (s : State) (e : DecodeError), s.run = .running → decodeWith c (fetch s) = .error e →
    (stepIn c s).pc = s.pc + BitVec.ofNat 8 (instrWidth (s.read s.pc)) ∧
    OnlyCellsChange [pcAddr] s (stepIn c s) ∧ SameControl s (stepIn c s) ∧
    stepReport c s = [.decodeFailure s.pc (s.read s.pc)] ∧
    c.reg3Sub = .decodeFailure ∧ reservedByte (s.read s.pc) = true ∧ instrWidth (s.read s.pc) = 2

/-! ### The resolver and the adder -/

/-- 40_step_and_addressing.md R98, R101: the effective value of each mode; sums wrap modulo 256. -/
def Obligations.EffectiveValueOfEachMode : Prop :=
  ∀ (b : Byte) (s : State),
    effectiveValue .immediate b s = b ∧
    effectiveValue .memory b s = s.read b ∧
    effectiveValue .indirect b s = s.read (s.read b) ∧
    effectiveValue .indexed b s = s.read (BitVec.ofNat 8 ((b.toNat + (s.reg .x).toNat) % 256)) ∧
    effectiveValue .indirectIndexed b s = s.read (BitVec.ofNat 8 (((s.read b).toNat + (s.reg .x).toNat) % 256))

/-- 40_step_and_addressing.md R99 to R101: the effective address of each mode, the IMMEDIATE row under both readings of
STORE_IMM_EA; the machine takes the slot (92_eei_decisions.md D5, note 2). -/
def Obligations.EffectiveAddressOfEachMode : Prop :=
  (∀ (c : Config) (b : Byte) (s : State),
    (c.storeImmEA = .operandSlot → effectiveAddress c .immediate b s = BitVec.ofNat 8 ((s.pc.toNat + 1) % 256)) ∧
    (c.storeImmEA = .operandValue → effectiveAddress c .immediate b s = b) ∧
    effectiveAddress c .memory b s = b ∧
    effectiveAddress c .indirect b s = s.read b ∧
    effectiveAddress c .indexed b s = BitVec.ofNat 8 ((b.toNat + (s.reg .x).toNat) % 256) ∧
    effectiveAddress c .indirectIndexed b s = BitVec.ofNat 8 (((s.read b).toNat + (s.reg .x).toNat) % 256)) ∧
  config.storeImmEA = .operandSlot

/-- 40_step_and_addressing.md R99: for every mode EV = M[EA], when the operand byte is the one at (p + 1) mod 256 (the
slot reading, note 2). -/
def Obligations.EffectiveValueIsReadAtEffectiveAddress : Prop :=
  ∀ (m : AddrMode) (b : Byte) (s : State), s.read (s.pc + 1#8) = b →
    effectiveValue m b s = s.read (effectiveAddress config m b s)

/-- 41_add_sub.md R110: the adder's result is the sum modulo 256, its carry the unsigned sum exceeding 255, its overflow
the signed overflow of a + v, which is also the bit expression the rule gives. -/
def Obligations.AdderResultCarryOverflow : Prop :=
  ∀ a v : Byte,
    (addFlags a v).result.toNat = (a.toNat + v.toNat) % 256 ∧
    ((addFlags a v).carry = true ↔ 255 < a.toNat + v.toNat) ∧
    ((addFlags a v).overflow = true ↔ a.toInt + v.toInt < -128 ∨ 127 < a.toInt + v.toInt) ∧
    ((addFlags a v).overflow = true ↔ a.msb = v.msb ∧ a.msb ≠ (addFlags a v).result.msb) ∧
    BitVec.ofNat 8 (addFlags a v).overflow.toNat =
      (((a ^^^ (addFlags a v).result) &&& (v ^^^ (addFlags a v).result)) >>> 7) &&& 1#8

/-- 41_add_sub.md R113 under both readings of OC_WRITE (92_eei_decisions.md D8, note 4): bit 0 is the overflow, bit 1 the
carry, and bits 7:2 become 0 or are kept; the machine writes the whole byte. -/
def Obligations.FlagCellUnderEachReading : Prop :=
  (∀ (c : Config) (r : Reg) (m : AddrMode) (b : Byte) (s : State),
    ((effectIn c (.add r m b) s).flagCell r).getLsbD 0 = (addFlags (s.reg r) (effectiveValue m b s)).overflow ∧
    ((effectIn c (.add r m b) s).flagCell r).getLsbD 1 = (addFlags (s.reg r) (effectiveValue m b s)).carry ∧
    ((effectIn c (.sub r m b) s).flagCell r).getLsbD 0 =
      (addFlags (s.reg r) (0#8 - effectiveValue m b s)).overflow ∧
    ((effectIn c (.sub r m b) s).flagCell r).getLsbD 1 = (addFlags (s.reg r) (0#8 - effectiveValue m b s)).carry ∧
    ∀ j : Nat, 2 ≤ j →
      ((effectIn c (.add r m b) s).flagCell r).getLsbD j =
        (decide (c.ocWrite = .bits10Only) && (s.flagCell r).getLsbD j) ∧
      ((effectIn c (.sub r m b) s).flagCell r).getLsbD j =
        (decide (c.ocWrite = .bits10Only) && (s.flagCell r).getLsbD j)) ∧
  config.ocWrite = .wholeByte

/-! ### The instructions: each completes, with its result and its frame -/

/-- 41_add_sub.md R111: ADD. The whole flag cell is written (note 4); its address is 129 + idx(r) (note 13). -/
def Obligations.AddWritesSumAndFlags : Prop :=
  ∀ (r : Reg) (m : AddrMode) (b : Byte) (s : State), ∃ t : State,
    exec (.add r m b) s = .next t ∧
    (t.reg r).toNat = ((s.reg r).toNat + (effectiveValue m b s).toNat) % 256 ∧
    (t.flagCell r).toNat =
      (if 255 < (s.reg r).toNat + (effectiveValue m b s).toNat then 2 else 0) +
      (if (s.reg r).toInt + (effectiveValue m b s).toInt < -128 ∨ 127 < (s.reg r).toInt + (effectiveValue m b s).toInt
        then 1 else 0) ∧
    t.pc = s.pc + 2#8 ∧
    OnlyCellsChange [regAddr r, flagAddr r, pcAddr] s t ∧ SameControl s t

/-- 41_add_sub.md R112: SUB adds the two's-complement negation, with the flags of that addition; it is the ADD of the
negated literal (whole flag cell and pairing: notes 4 and 13). -/
def Obligations.SubAddsTheNegation : Prop :=
  (∀ (r : Reg) (m : AddrMode) (b : Byte) (s : State), ∃ t : State,
    exec (.sub r m b) s = .next t ∧
    t.reg r = s.reg r - effectiveValue m b s ∧
    (t.flagCell r).toNat =
      (if 255 < (s.reg r).toNat + (256 - (effectiveValue m b s).toNat) % 256 then 2 else 0) +
      (if (s.reg r).toInt + (0#8 - effectiveValue m b s).toInt < -128 ∨
          127 < (s.reg r).toInt + (0#8 - effectiveValue m b s).toInt then 1 else 0) ∧
    t.pc = s.pc + 2#8 ∧
    OnlyCellsChange [regAddr r, flagAddr r, pcAddr] s t ∧ SameControl s t) ∧
  (∀ (r : Reg) (v : Byte) (s : State), exec (.sub r .immediate v) s = exec (.add r .immediate (0#8 - v)) s)

/-- 41_add_sub.md R112, the forms the rule derives: after a SUB of v the carry is 1 iff v is not 0 and x[r] >= v, and
the overflow is the true signed overflow of x[r] - v for every v but 0x80. -/
def Obligations.SubFlagsInClosedForm : Prop :=
  ∀ (r : Reg) (m : AddrMode) (b : Byte) (s t : State), exec (.sub r m b) s = .next t →
    ((t.flagCell r).getLsbD 1 = true ↔
      effectiveValue m b s ≠ 0#8 ∧ (effectiveValue m b s).toNat ≤ (s.reg r).toNat) ∧
    (effectiveValue m b s ≠ 0x80#8 →
      ((t.flagCell r).getLsbD 0 = true ↔
        (s.reg r).toInt - (effectiveValue m b s).toInt < -128 ∨
        127 < (s.reg r).toInt - (effectiveValue m b s).toInt))

/-- 42_load_store.md R120: LOAD moves the effective value unchanged (flags untouched: D11, note 12). -/
def Obligations.LoadMovesTheEffectiveValue : Prop :=
  ∀ (r : Reg) (m : AddrMode) (b : Byte) (s : State), ∃ t : State,
    exec (.load r m b) s = .next t ∧
    t.reg r = effectiveValue m b s ∧ t.pc = s.pc + 2#8 ∧
    OnlyCellsChange [regAddr r, pcAddr] s t ∧ SameControl s t

/-- 42_load_store.md R121: STORE writes one byte, at the effective address; a store to address 3 is followed by the
PC's advance, so it continues at the stored value + 2 (D6, note 3; the IMMEDIATE address is D5, note 2; flags untouched:
D11, note 12). -/
def Obligations.StoreWritesTheEffectiveAddress : Prop :=
  ∀ (r : Reg) (m : AddrMode) (b : Byte) (s : State), ∃ t : State,
    exec (.store r m b) s = .next t ∧
    (effectiveAddress config m b s ≠ pcAddr →
      t.read (effectiveAddress config m b s) = s.reg r ∧ t.pc = s.pc + 2#8) ∧
    (effectiveAddress config m b s = pcAddr → t.pc = s.reg r + 2#8) ∧
    OnlyCellsChange [effectiveAddress config m b s, pcAddr] s t ∧ SameControl s t

/-- 40_step_and_addressing.md R95 under both readings of PC_ADVANCE_BASE (92_eei_decisions.md D6, note 3): where STORE,
SET0 or SET1 writes address 3 the next instruction is at the written value + 2, or at p + 2. -/
def Obligations.PcCellWriteUnderEachReading : Prop :=
  (∀ (c : Config) (r : Reg) (m : AddrMode) (b : Byte) (s : State), effectiveAddress c m b s = pcAddr →
    (effectIn c (.store r m b) s).pc = (if c.pcAdvanceBase = .currentCell then s.reg r else s.pc) + 2#8) ∧
  (∀ (c : Config) (k : Nat) (s : State),
    (effectIn c (.set0 k pcAddr) s).pc =
      (if c.pcAdvanceBase = .currentCell then s.pc &&& ~~~(1#8 <<< k) else s.pc) + 2#8 ∧
    (effectIn c (.set1 k pcAddr) s).pc =
      (if c.pcAdvanceBase = .currentCell then s.pc ||| (1#8 <<< k) else s.pc) + 2#8) ∧
  config.pcAdvanceBase = .currentCell

/-- 43_and_or_lneg.md R130, R131: AND and OR combine A bit by bit with the effective value and touch no flag. -/
def Obligations.AndOrCombineBitwiseIntoA : Prop :=
  ∀ (m : AddrMode) (b : Byte) (s : State),
    (∃ t : State, exec (.and m b) s = .next t ∧
      (∀ j : Nat, (t.reg .a).getLsbD j = ((s.reg .a).getLsbD j && (effectiveValue m b s).getLsbD j)) ∧
      t.pc = s.pc + 2#8 ∧ OnlyCellsChange [regAddr .a, pcAddr] s t ∧ SameControl s t) ∧
    (∃ t : State, exec (.or m b) s = .next t ∧
      (∀ j : Nat, (t.reg .a).getLsbD j = ((s.reg .a).getLsbD j || (effectiveValue m b s).getLsbD j)) ∧
      t.pc = s.pc + 2#8 ∧ OnlyCellsChange [regAddr .a, pcAddr] s t ∧ SameControl s t)

/-- 43_and_or_lneg.md R132: LNEG loads A with the two's-complement negation of the effective value, flags untouched. -/
def Obligations.LnegLoadsTheNegation : Prop :=
  ∀ (m : AddrMode) (b : Byte) (s : State), ∃ t : State,
    exec (.lneg m b) s = .next t ∧
    (t.reg .a).toNat = (256 - (effectiveValue m b s).toNat) % 256 ∧ t.pc = s.pc + 2#8 ∧
    OnlyCellsChange [regAddr .a, pcAddr] s t ∧ SameControl s t

/-- 44_jump.md R141: an unconditional jump is taken; otherwise the condition is that of the tested register's value. -/
def Obligations.BranchConditions : Prop :=
  ∀ (k : Cond) (r : Reg) (s : State),
    jumpTaken .unconditional k s = true ∧
    (jumpTaken (.reg r) .nonZero s = true ↔ (s.reg r).toNat ≠ 0) ∧
    (jumpTaken (.reg r) .zero s = true ↔ (s.reg r).toNat = 0) ∧
    (jumpTaken (.reg r) .lessThanZero s = true ↔ (s.reg r).toInt < 0) ∧
    (jumpTaken (.reg r) .positive s = true ↔ 0 ≤ (s.reg r).toInt) ∧
    (jumpTaken (.reg r) .positiveNonZero s = true ↔ 0 < (s.reg r).toInt)

/-- 44_jump.md R140, R142: JPD goes to the target, b2 or M[b2], when the branch is taken and to p + 2 otherwise; no cell
but the PC changes (flags untouched: D11, note 12). -/
def Obligations.JpdJumpsToTheTarget : Prop :=
  ∀ (q : JumpTest) (k : Cond) (indirect : Bool) (b : Byte) (s : State), ∃ t : State,
    exec (.jpd q k (if indirect then .indirect else .memory) b) s = .next t ∧
    t.pc = (if jumpTaken q k s then (if indirect then s.read b else b) else s.pc + 2#8) ∧
    OnlyCellsChange [pcAddr] s t ∧ SameControl s t

/-- 44_jump.md R140, R143: a taken JMD stores p + 2 at the target (at target 3 the PC then overwrites it) and goes to
target + 1; not taken, it writes nothing and goes to p + 2 (flags untouched: D11, note 12). -/
def Obligations.JmdStoresTheReturnAddress : Prop :=
  ∀ (q : JumpTest) (k : Cond) (indirect : Bool) (b target : Byte) (s : State),
    target = (if indirect then s.read b else b) → ∃ t : State,
    exec (.jmd q k (if indirect then .indirect else .memory) b) s = .next t ∧
    (jumpTaken q k s = true → t.pc = target + 1#8 ∧ (target ≠ pcAddr → t.read target = s.pc + 2#8) ∧
      OnlyCellsChange [target, pcAddr] s t) ∧
    (jumpTaken q k s = false → t.pc = s.pc + 2#8 ∧ OnlyCellsChange [pcAddr] s t) ∧
    SameControl s t

/-- 45_skip_set.md R150, R151: SKP0 skips (PC + 4) when bit k of M[n] is 0, SKP1 when it is 1; otherwise PC + 2; memory
is not changed (flags untouched: D11, note 12). -/
def Obligations.SkipsTestOneBit : Prop :=
  ∀ (k : Nat) (n : Byte) (s : State), k < 8 →
    (∃ t : State, exec (.skp0 k n) s = .next t ∧
      t.pc = s.pc + (if (s.read n).toNat / 2 ^ k % 2 = 0 then 4#8 else 2#8) ∧
      OnlyCellsChange [pcAddr] s t ∧ SameControl s t) ∧
    (∃ t : State, exec (.skp1 k n) s = .next t ∧
      t.pc = s.pc + (if (s.read n).toNat / 2 ^ k % 2 = 1 then 4#8 else 2#8) ∧
      OnlyCellsChange [pcAddr] s t ∧ SameControl s t)

/-- 45_skip_set.md R152, R153: SET0 and SET1 give bit k of M[n] the value and keep its other seven bits; at n = 3 the
PC's advance adds 2 to the modified value (D6, note 3; flags untouched: D11, note 12). -/
def Obligations.SetsWriteOneBit : Prop :=
  ∀ (value : Bool) (k : Nat) (n v : Byte) (s : State), k < 8 →
    (∀ j : Nat, j < 8 → v.getLsbD j = if j = k then value else (s.read n).getLsbD j) → ∃ t : State,
    exec (if value then .set1 k n else .set0 k n) s = .next t ∧
    (n ≠ pcAddr → t.read n = v ∧ t.pc = s.pc + 2#8) ∧
    (n = pcAddr → t.pc = v + 2#8) ∧
    OnlyCellsChange [n, pcAddr] s t ∧ SameControl s t

/-- 46_shift_rotate.md R160, R162: SFTR by k is the floor of the two's-complement value over 2^k (the bits shifted out do
not reach a flag: D10, D11, notes 11 and 12). -/
def Obligations.SftrDividesBySignedPowers : Prop :=
  ∀ (r : Reg) (k : Nat) (s : State), (Instr.sftr r k).wellFormed = true → ∃ t : State,
    exec (.sftr r k) s = .next t ∧
    (t.reg r).toInt = (s.reg r).toInt / 2 ^ k ∧ t.pc = s.pc + 1#8 ∧
    OnlyCellsChange [regAddr r, pcAddr] s t ∧ SameControl s t

/-- 46_shift_rotate.md R161: SFTL by k multiplies by 2^k modulo 256; that 0 enters at bit 0 is the spec's decision D10
(note 11; flags untouched: D11, note 12). -/
def Obligations.SftlMultipliesByPowers : Prop :=
  ∀ (r : Reg) (k : Nat) (s : State), (Instr.sftl r k).wellFormed = true → ∃ t : State,
    exec (.sftl r k) s = .next t ∧
    (t.reg r).toNat = (s.reg r).toNat * 2 ^ k % 256 ∧ t.pc = s.pc + 1#8 ∧
    OnlyCellsChange [regAddr r, pcAddr] s t ∧ SameControl s t

/-- 46_shift_rotate.md R163, R164: ROTL and ROTR move bit j to bit j + k and j - k modulo 8 (flags untouched: D11,
note 12). -/
def Obligations.RotatesMoveEachBit : Prop :=
  ∀ (r : Reg) (k : Nat) (s : State), (Instr.rotl r k).wellFormed = true →
    (∃ t : State, exec (.rotl r k) s = .next t ∧
      (∀ j : Nat, j < 8 → (t.reg r).getLsbD ((j + k) % 8) = (s.reg r).getLsbD j) ∧ t.pc = s.pc + 1#8 ∧
      OnlyCellsChange [regAddr r, pcAddr] s t ∧ SameControl s t) ∧
    (∃ t : State, exec (.rotr r k) s = .next t ∧
      (∀ j : Nat, j < 8 → (t.reg r).getLsbD j = (s.reg r).getLsbD ((j + k) % 8)) ∧ t.pc = s.pc + 1#8 ∧
      OnlyCellsChange [regAddr r, pcAddr] s t ∧ SameControl s t)

/-- 46_shift_rotate.md R163, R164: ROTL by 4 equals ROTR by 4, and ROTR by k undoes ROTL by k. -/
def Obligations.RotatesUndoEachOther : Prop :=
  (∀ (r : Reg) (s : State), exec (.rotl r 4) s = exec (.rotr r 4) s) ∧
  (∀ (r : Reg) (k : Nat) (s t u : State), exec (.rotl r k) s = .next t → exec (.rotr r k) t = .next u →
    u.reg r = s.reg r)

/-- 47_noop_halt.md R170: NOOP advances the PC by 1 and has no other effect. -/
def Obligations.NoopOnlyAdvances : Prop :=
  ∀ s : State, ∃ t : State, exec .noop s = .next t ∧ t.pc = s.pc + 1#8 ∧ OnlyCellsChange [pcAddr] s t ∧ SameControl s t

/-- 47_noop_halt.md R171: HALT stops the machine with the PC after it, and no later trigger changes anything until the
host calls `start()`, which changes only RUN (flags untouched: D11, note 12). -/
def Obligations.HaltStopsAfterAdvancing : Prop :=
  ∀ s : State, ∃ t : State, exec .halt s = .next t ∧ t.run = .halted ∧ t.pc = s.pc + 1#8 ∧
    OnlyCellsChange [pcAddr] s t ∧ t.ar = s.ar ∧ t.dm = s.dm ∧
    (∀ k : Nat, Host.Core.run Sys2Proof.core k t = .next t) ∧
    (consoleOp .start t).state = { t with run := .running }

/-! ### The whole machine -/

/-- Every instruction completes in every state and writes only its cells: its destination register, that register's flag
cell for ADD and SUB, the address it stores to, and the PC; only HALT changes RUN (10_state.md R13, R15, R17, R19;
flags untouched elsewhere: note 12). -/
def Obligations.InstructionsWriteOnlyTheirCells : Prop :=
  ∀ (i : Instr) (s : State), ∃ t : State, exec i s = .next t ∧
    OnlyCellsChange (writtenCells config i s) s t ∧ t.ar = s.ar ∧ t.dm = s.dm ∧
    t.run = (if i = .halt then .halted else s.run)

/-- 10_state.md R13, R17: a flag cell that changes was that of an ADD or SUB's target register, or the address the
instruction stored to; a general register that changes was the destination, or the address stored to (notes 12, 13). -/
def Obligations.RegistersAndFlagsChangeOnlyAsListed : Prop :=
  ∀ (i : Instr) (s t : State), exec i s = .next t → ∀ q : Reg,
    (t.flagCell q ≠ s.flagCell q → flagsOf i = some q ∨ storedAddress config i s = some (flagAddr q)) ∧
    (t.reg q ≠ s.reg q → destination i = some q ∨ storedAddress config i s = some (regAddr q)) ∧
    (t.out ≠ s.out → storedAddress config i s = some outAddr) ∧
    (t.input ≠ s.input → storedAddress config i s = some inAddr)

/-- 10_state.md R15: an instruction that neither jumps, skips nor stores to address 3 leaves the PC at p plus its
length. -/
def Obligations.PcAdvancesByTheLength : Prop :=
  ∀ (i : Instr) (s t : State), exec i s = .next t → jumps i s = false → storedAddress config i s ≠ some pcAddr →
    (∀ (k : Nat) (n : Byte), i ≠ .skp0 k n ∧ i ≠ .skp1 k n) →
    t.pc = s.pc + BitVec.ofNat 8 (encode i).length

/-- 10_state.md R19: RUN starts HALTED; it changes only by HALT, by `start()` to RUNNING and by `stop()` to HALTED; no
instruction reads it. -/
def Obligations.RunStateChangesOnlyByHaltStartStop : Prop :=
  State.reset.run = .halted ∧
  (∀ (i : Instr) (s t : State), exec i s = .next t → t.run ≠ s.run → i = .halt ∧ t.run = .halted) ∧
  (∀ (op : ConsoleOp) (s : State), (consoleOp op s).state.run ≠ s.run →
    (op = .start ∧ (consoleOp op s).state.run = .running) ∨ (op = .stop ∧ (consoleOp op s).state.run = .halted)) ∧
  (∀ (i : Instr) (s t : State) (x : RunState), exec i s = .next t →
    ∃ u, exec i { s with run := x } = .next u ∧ u.mem = t.mem ∧ u.ar = t.ar)

/-- 10_state.md R20, R21, R32: no run of the machine reads or writes AR or DM, so whatever their reset values, every run
goes the same way. -/
def Obligations.HostCellsDoNotAffectRuns : Prop :=
  ∀ (k : Nat) (s : State) (x : Byte) (d : DisplayMode), ∃ t : State,
    Host.Core.run Sys2Proof.core k s = .next t ∧ t.ar = s.ar ∧ t.dm = s.dm ∧
    Host.Core.run Sys2Proof.core k { s with ar := x, dm := d } = .next { t with ar := x, dm := d }

/-- 00_scope.md R5, 92_eei_decisions.md (notes for the model builder): outside the reserved SUB bytes and the named
forms of STORE, SET0, SET1, ADD and SUB, the step is the same whatever the parameters are. -/
def Obligations.ParametersMatterOnlyAtTheirForms : Prop :=
  ∀ (c : Config) (s : State) (i : Instr) (rest : List Byte),
    decode (fetch s) = .ok (i, rest) → reservedByte (s.read s.pc) = false → parameterForm i s = false →
    step s = .next (stepIn c s)

/-- 45_skip_set.md R153 (KSIM section 8): SET1 of a bit then SKP1 on it always skips, SET0 then SKP0 always skips, at
every address but 3. -/
def Obligations.SetThenSkipAlwaysSkips : Prop :=
  ∀ (k : Nat) (n : Byte) (s : State), k < 8 → n ≠ pcAddr →
    (∃ t u : State, exec (.set1 k n) s = .next t ∧ exec (.skp1 k n) t = .next u ∧ u.pc = t.pc + 4#8) ∧
    (∃ t u : State, exec (.set0 k n) s = .next t ∧ exec (.skp0 k n) t = .next u ∧ u.pc = t.pc + 4#8)

/-- 44_jump.md R143: an indirect JPD through the cell a JMD wrote returns to the instruction after the JMD, from any
state in which that cell still holds the link. -/
def Obligations.IndirectJumpReturnsFromJmd : Prop :=
  ∀ (k k' : Cond) (n : Byte) (s : State), n ≠ pcAddr → ∃ t : State,
    exec (.jmd .unconditional k .memory n) s = .next t ∧ t.pc = n + 1#8 ∧
    ∀ u : State, u.read n = t.read n → ∃ w : State,
      exec (.jpd .unconditional k' .indirect n) u = .next w ∧ w.pc = s.pc + 2#8

/-- 20_memory.md R53: a store is seen by the very next fetch, as its first byte or as its operand byte. -/
def Obligations.StoreIsSeenByTheNextFetch : Prop :=
  ∀ (r : Reg) (m : AddrMode) (b : Byte) (s : State), effectiveAddress config m b s ≠ pcAddr → ∃ t : State,
    exec (.store r m b) s = .next t ∧
    (effectiveAddress config m b s = s.pc + 2#8 → (fetch t).head? = some (s.reg r)) ∧
    (effectiveAddress config m b s = s.pc + 3#8 → instrWidth (t.read t.pc) = 2 → fetch t = [t.read t.pc, s.reg r])

/-- 44_jump.md R142: an unconditional direct JPD (0xE3..0xE7) to its own address is an endless loop: every number of
triggers leaves the state as it is, and RUNNING. -/
def Obligations.JumpToItselfNeverHalts : Prop :=
  ∀ s : State, s.Inv → s.run = .running → 0xE3 ≤ (s.read s.pc).toNat → (s.read s.pc).toNat ≤ 0xE7 →
    s.read (s.pc + 1#8) = s.pc → ∀ k : Nat, Host.Core.run Sys2Proof.core k s = .next s

/-! ### The host interface -/

/-- 60_exceptions.md R194, R195: `start()` and `stop()` set RUN and change nothing else; each is idempotent. -/
def Obligations.StartAndStopSetOnlyRun : Prop :=
  ∀ s : State,
    (consoleOp .start s).state = { s with run := .running } ∧ (consoleOp .stop s).state = { s with run := .halted } ∧
    (s.run = .running → (consoleOp .start s).state = s) ∧ (s.run = .halted → (consoleOp .stop s).state = s)

/-- 60_exceptions.md R196 to R198: the input operations write only address 255, in both run states (note 16);
`toggleInputBit` outside 0..7 is refused (note 23). -/
def Obligations.InputOperationsWriteOnlyInput : Prop :=
  ∀ s : State,
    (∀ v : Byte, (consoleOp (.writeInputRegister v) s).reply = .done ∧
      (consoleOp (.writeInputRegister v) s).state.input = v ∧
      OnlyCellsChange [inAddr] s (consoleOp (.writeInputRegister v) s).state ∧
      (consoleOp (.writeInputRegister v) s).state.run = s.run ∧
      (consoleOp (.writeInputRegister v) s).state.ar = s.ar) ∧
    (∀ n : Nat, n < 8 → (consoleOp (.toggleInputBit n) s).reply = .done ∧
      (∀ j : Nat, j < 8 → (consoleOp (.toggleInputBit n) s).state.input.getLsbD j =
        (if j = n then !s.input.getLsbD j else s.input.getLsbD j)) ∧
      OnlyCellsChange [inAddr] s (consoleOp (.toggleInputBit n) s).state ∧
      (consoleOp (.toggleInputBit n) s).state.run = s.run ∧ (consoleOp (.toggleInputBit n) s).state.ar = s.ar) ∧
    (∀ n : Nat, 8 ≤ n → consoleOp (.toggleInputBit n) s = { state := s, reply := .callRefused }) ∧
    ((consoleOp .clearInputRegister s).reply = .done ∧ (consoleOp .clearInputRegister s).state.input = 0#8 ∧
      OnlyCellsChange [inAddr] s (consoleOp .clearInputRegister s).state ∧
      (consoleOp .clearInputRegister s).state.run = s.run ∧ (consoleOp .clearInputRegister s).state.ar = s.ar)

/-- 60_exceptions.md R200 to R202 and the HALTED half of R199: AR is loaded from IN; the console read returns M[AR] and
the console store writes IN to M[AR], each then adding 1 to AR modulo 256, the read and the store refused while RUNNING;
AR can be read in both run states. That the HALTED set, read and store leave DM as it is is the model's reading (note
24). -/
def Obligations.AddressRegisterOperations : Prop :=
  ∀ s : State,
    (consoleOp .getAddressRegister s = { state := s, reply := .byte s.ar }) ∧
    (s.run = .halted →
      consoleOp .setAddressRegister s = { state := { s with ar := s.read 255#8 }, reply := .done } ∧
      consoleOp .readMemoryAtAddressRegister s =
        { state := { s with ar := BitVec.ofNat 8 ((s.ar.toNat + 1) % 256) }, reply := .byte (s.read s.ar) } ∧
      ((consoleOp .storeInputToAddressRegister s).reply = .done ∧
        (consoleOp .storeInputToAddressRegister s).state.ar.toNat = (s.ar.toNat + 1) % 256 ∧
        (consoleOp .storeInputToAddressRegister s).state.read s.ar = s.read 255#8 ∧
        OnlyCellsChange [s.ar] s (consoleOp .storeInputToAddressRegister s).state ∧
        (consoleOp .storeInputToAddressRegister s).state.run = .halted ∧
        (consoleOp .storeInputToAddressRegister s).state.dm = s.dm)) ∧
    (s.run = .running →
      consoleOp .readMemoryAtAddressRegister s = { state := s, reply := .illegalConsoleOperation } ∧
      consoleOp .storeInputToAddressRegister s = { state := s, reply := .illegalConsoleOperation })

/-- 60_exceptions.md R203: the snapshot is the 256 cells, the run state, AR and DM, and taking it changes nothing. -/
def Obligations.SnapshotCopiesTheState : Prop :=
  ∀ s : State, ∃ x : Snapshot, consoleOp .snapshot s = { state := s, reply := .snap x } ∧
    x.memory.length = 256 ∧ (∀ a : Byte, x.memory[a.toNat]? = some (s.read a)) ∧
    (x.isRunning = true ↔ s.run = .running) ∧ x.addressRegister = s.ar ∧ x.displayMode = s.dm

/-- 20_memory.md R51, 60_exceptions.md R183: while RUNNING, address-set, console read and console store are refused with
IllegalConsoleOperation and change nothing (address-set: note 15; a load by other means: note 30), and no operation
changes a cell other than 255, or AR. -/
def Obligations.RunningMachineIsClosedToTheConsole : Prop :=
  ∀ s : State, s.run = .running →
    (∀ op : ConsoleOp, op = .setAddressRegister ∨ op = .readMemoryAtAddressRegister ∨
        op = .storeInputToAddressRegister ∨ (∃ a v, op = .loadCell a v) →
      consoleOp op s = { state := s, reply := .illegalConsoleOperation } ∧
      consoleReport op s = [.illegalConsoleOperation]) ∧
    (∀ op : ConsoleOp, OnlyCellsChange [inAddr] s (consoleOp op s).state ∧ (consoleOp op s).state.ar = s.ar ∧
      (op ≠ .stop → (consoleOp op s).state.run = .running))

/-- 60_exceptions.md R202: entering a program by hand while HALTED puts its bytes at consecutive addresses below 255,
leaves AR after them and every other cell but IN as it was. -/
def Obligations.ProgramEnteredByHand : Prop :=
  ∀ (a : Byte) (bytes : List Byte) (s : State), s.run = .halted → a.toNat + bytes.length ≤ 255 →
    (afterEvents (enterProgram a bytes) s).run = .halted ∧
    (afterEvents (enterProgram a bytes) s).ar = a + BitVec.ofNat 8 bytes.length ∧
    (∀ (k : Nat) (h : k < bytes.length),
      (afterEvents (enterProgram a bytes) s).read (a + BitVec.ofNat 8 k) = bytes[k]) ∧
    (∀ x : Byte, x ≠ inAddr → (x.toNat < a.toNat ∨ a.toNat + bytes.length ≤ x.toNat) →
      (afterEvents (enterProgram a bytes) s).read x = s.read x)
end

