-- ==== Sys2Proof/Laws/Memory.lean ====
section
/-! SUPPORT. The memory's laws: a read after a write, for every list of cells; every operation keeps the canonical form;
a canonical memory is determined by what it reads as. -/

namespace Sys2Proof.Machine

@[simp] theorem Memory.lookup_nil (a : Nat) : Memory.lookup [] a = 0#8 := rfl

theorem Memory.lookup_erase (m : Memory) (a b : Nat) :
    (m.erase a).lookup b = if b = a then 0#8 else m.lookup b := by
  induction m with
  | nil => simp [Memory.erase]
  | cons e m ih =>
    obtain ⟨k, v⟩ := e
    simp only [Memory.erase]
    by_cases hb : b = a
    · by_cases hk : k = a <;> simp_all [Memory.lookup]
    · by_cases hk : k = a
      · simp [hk, Memory.lookup, ih, hb, Ne.symm hb]
      · simp [hk, Memory.lookup, ih, hb]

theorem Memory.lookup_place (m : Memory) (a b : Nat) (v : Byte) (hk : ∀ e ∈ m, e.1 ≠ a) :
    (m.place a v).lookup b = if b = a then v else m.lookup b := by
  induction m with
  | nil => by_cases hb : b = a <;> simp [Memory.place, Memory.lookup, hb, Ne.symm, unlisted]
  | cons e m ih =>
    obtain ⟨k, w⟩ := e
    have hka : k ≠ a := hk (k, w) (by simp)
    have ih := ih (fun e he => hk e (by simp [he]))
    simp only [Memory.place]
    by_cases hb : b = a
    · subst hb
      split <;> simp_all [Memory.lookup]
    · split <;> simp [Memory.lookup, ih, hb, Ne.symm hb]

theorem Memory.erase_keys (m : Memory) (a : Nat) : ∀ e ∈ m.erase a, e.1 ≠ a := by
  induction m with
  | nil => simp [Memory.erase]
  | cons e m ih =>
    obtain ⟨k, v⟩ := e
    simp only [Memory.erase]
    split
    · exact ih
    · simpa [*] using ih

/-- Read after write, for every list of cells, canonical or not, inside the address space and outside it (R41, R43). -/
theorem Memory.read_write (m : Memory) (a b : Nat) (v : Byte) :
    (m.write a v).read b = if b = a ∧ a < memorySize then v else m.read b := by
  unfold Memory.write
  by_cases ha : a < memorySize
  · by_cases hv : v = unlisted
    · by_cases hb : b = a <;> simp [ha, hv, hb, Memory.read, Memory.lookup_erase, unlisted]
    · simp only [ha, hv, if_true, if_false, and_true, Memory.read, Memory.lookup_place _ _ _ _ (Memory.erase_keys m a),
        Memory.lookup_erase]
      by_cases hb : b = a <;> simp [hb, ha]
  · simp [ha]

theorem Memory.wfFrom_cons (lo k : Nat) (v : Byte) (m : Memory) :
    Memory.wfFrom lo ((k, v) :: m) = true ↔ lo ≤ k ∧ k < memorySize ∧ v ≠ 0#8 ∧ m.wfFrom (k + 1) = true := by
  simp only [Memory.wfFrom, Bool.and_eq_true, decide_eq_true_eq, and_assoc]; rfl

theorem Memory.wfFrom_mono {lo lo' : Nat} (h : lo ≤ lo') {m : Memory} (hm : m.wfFrom lo' = true) :
    m.wfFrom lo = true := by
  cases m with
  | nil => rfl
  | cons e m => obtain ⟨k, v⟩ := e; simp_all [Memory.wfFrom]; omega

theorem Memory.wfFrom_erase {m : Memory} (a : Nat) : ∀ {lo : Nat}, m.wfFrom lo = true → (m.erase a).wfFrom lo = true := by
  induction m with
  | nil => intros; rfl
  | cons e m ih =>
    intro lo h
    obtain ⟨k, v⟩ := e
    simp only [Memory.wfFrom, Bool.and_eq_true, decide_eq_true_eq] at h
    obtain ⟨⟨⟨h1, h2⟩, h3⟩, h4⟩ := h
    simp only [Memory.erase]
    split
    · exact Memory.wfFrom_mono (Nat.le_succ_of_le h1) (ih h4)
    · simp [Memory.wfFrom, *]

theorem Memory.wfFrom_place {a : Nat} {v : Byte} (ha : a < memorySize) (hv : v ≠ unlisted) {m : Memory} :
    ∀ {lo : Nat}, lo ≤ a → (∀ e ∈ m, e.1 ≠ a) → m.wfFrom lo = true → (m.place a v).wfFrom lo = true := by
  induction m with
  | nil => intro lo hlo _ _; simp [Memory.place, Memory.wfFrom, *]
  | cons e m ih =>
    intro lo hlo hk h
    obtain ⟨k, w⟩ := e
    have hka : k ≠ a := hk (k, w) (by simp)
    simp only [Memory.wfFrom, Bool.and_eq_true, decide_eq_true_eq] at h
    obtain ⟨⟨⟨h1, h2⟩, h3⟩, h4⟩ := h
    simp only [Memory.place]
    split
    · rename_i hlt
      simp [Memory.wfFrom, *]
    · have := ih (lo := k + 1) (by omega) (fun e he => hk e (by simp [he])) h4
      simp [Memory.wfFrom, *]

/-- Every write keeps the canonical form. -/
theorem Memory.write_wf {m : Memory} (a : Nat) (v : Byte) (h : m.wf = true) : (m.write a v).wf = true := by
  unfold Memory.write
  split
  · split
    · exact Memory.wfFrom_erase a h
    · exact Memory.wfFrom_place ‹_› ‹_› (Nat.zero_le _) (Memory.erase_keys m a) (Memory.wfFrom_erase a h)
  · exact h

theorem Memory.lookup_below {m : Memory} : ∀ {lo a : Nat}, m.wfFrom lo = true → a < lo → m.lookup a = 0#8 := by
  induction m with
  | nil => intros; rfl
  | cons e m ih =>
    intro lo a h hlt
    obtain ⟨k, v⟩ := e
    simp only [Memory.wfFrom, Bool.and_eq_true, decide_eq_true_eq] at h
    obtain ⟨⟨⟨h1, h2⟩, h3⟩, h4⟩ := h
    have : k ≠ a := by omega
    simp [Memory.lookup, this, ih h4 (show a < k + 1 by omega)]

/-- What a canonical memory reads as at the head of a list of cells, and nowhere below it. -/
theorem Memory.lookup_head (k : Nat) (v : Byte) (m : Memory) : Memory.lookup ((k, v) :: m) k = v := by
  simp [Memory.lookup]

end Sys2Proof.Machine
end

