-- ==== Sys2Proof/Laws/State.lean ====
section
/-! SUPPORT. One lemma per field per update of the state, true by rfl. -/

namespace Sys2Proof.Machine

@[simp] theorem State.write_mem (s : State) (a v : Byte) : (s.write a v).mem = s.mem.write a.toNat v := rfl
@[simp] theorem State.write_run (s : State) (a v : Byte) : (s.write a v).run = s.run := rfl
@[simp] theorem State.write_ar (s : State) (a v : Byte) : (s.write a v).ar = s.ar := rfl
@[simp] theorem State.write_dm (s : State) (a v : Byte) : (s.write a v).dm = s.dm := rfl

@[simp] theorem State.setReg_run (s : State) (r : Reg) (v : Byte) : (s.setReg r v).run = s.run := rfl
@[simp] theorem State.setReg_ar (s : State) (r : Reg) (v : Byte) : (s.setReg r v).ar = s.ar := rfl
@[simp] theorem State.setReg_dm (s : State) (r : Reg) (v : Byte) : (s.setReg r v).dm = s.dm := rfl

@[simp] theorem State.setPc_run (s : State) (t : Byte) : (s.setPc t).run = s.run := rfl
@[simp] theorem State.setPc_ar (s : State) (t : Byte) : (s.setPc t).ar = s.ar := rfl
@[simp] theorem State.setPc_dm (s : State) (t : Byte) : (s.setPc t).dm = s.dm := rfl

@[simp] theorem State.halt_mem (s : State) : s.halt.mem = s.mem := rfl
@[simp] theorem State.halt_run (s : State) : s.halt.run = .halted := rfl
@[simp] theorem State.halt_ar (s : State) : s.halt.ar = s.ar := rfl
@[simp] theorem State.halt_dm (s : State) : s.halt.dm = s.dm := rfl
@[simp] theorem State.halt_read (s : State) (a : Byte) : s.halt.read a = s.read a := rfl

@[simp] theorem State.withRun_read (s : State) (x : RunState) (a : Byte) : ({ s with run := x } : State).read a = s.read a := rfl
@[simp] theorem State.withAr_read (s : State) (x a : Byte) : ({ s with ar := x } : State).read a = s.read a := rfl
@[simp] theorem State.withDm_read (s : State) (x : DisplayMode) (a : Byte) : ({ s with dm := x } : State).read a = s.read a := rfl

@[simp] theorem State.resetIn_mem (c : Config) : (State.resetIn c).mem = [] := rfl
@[simp] theorem State.resetIn_run (c : Config) : (State.resetIn c).run = .halted := rfl
@[simp] theorem State.resetIn_ar (c : Config) : (State.resetIn c).ar = c.arReset := rfl
@[simp] theorem State.resetIn_dm (c : Config) : (State.resetIn c).dm = c.dmReset := rfl

end Sys2Proof.Machine
end

