-- ==== Sys2Proof/Laws/Ops.lean ====
section
/-! SUPPORT. What the shared operations do, said once: provers cite these instead of unfolding the operations. -/

namespace Sys2Proof.Machine

/-- A read after a write of one cell (20_memory.md R41). -/
theorem State.read_write (s : State) (a v b : Byte) : (s.write a v).read b = if b = a then v else s.read b := by
  unfold State.write State.read
  simp only [Memory.read_write, ← BitVec.toNat_inj]
  have : a.toNat < memorySize := a.isLt
  simp [this]

theorem State.read_setReg (s : State) (r : Reg) (v b : Byte) :
    (s.setReg r v).read b = if b = regAddr r then v else s.read b := State.read_write s _ v b

theorem State.read_setPc (s : State) (t b : Byte) : (s.setPc t).read b = if b = pcAddr then t else s.read b :=
  State.read_write s _ t b

@[simp] theorem State.pc_setPc (s : State) (t : Byte) : (s.setPc t).pc = t := by
  simp [State.pc, State.read_setPc]

theorem State.write_inv {s : State} (a v : Byte) (h : s.Inv) : (s.write a v).Inv := Memory.write_wf _ _ h

theorem State.setReg_inv {s : State} (r : Reg) (v : Byte) (h : s.Inv) : (s.setReg r v).Inv := s.write_inv _ _ h

theorem State.setPc_inv {s : State} (t : Byte) (h : s.Inv) : (s.setPc t).Inv := s.write_inv _ _ h

theorem State.halt_inv {s : State} (h : s.Inv) : s.halt.Inv := h

/-! The special cells are apart from one another. -/

@[simp] theorem regAddr_ne_pcAddr (r : Reg) : regAddr r ≠ pcAddr := by cases r <;> decide
@[simp] theorem flagAddr_ne_pcAddr (r : Reg) : flagAddr r ≠ pcAddr := by cases r <;> decide
@[simp] theorem flagAddr_ne_regAddr (r q : Reg) : flagAddr r ≠ regAddr q := by cases r <;> cases q <;> decide
@[simp] theorem pcAddr_ne_regAddr (r : Reg) : pcAddr ≠ regAddr r := (regAddr_ne_pcAddr r).symm
@[simp] theorem pcAddr_ne_flagAddr (r : Reg) : pcAddr ≠ flagAddr r := (flagAddr_ne_pcAddr r).symm
@[simp] theorem regAddr_ne_flagAddr (r q : Reg) : regAddr q ≠ flagAddr r := (flagAddr_ne_regAddr r q).symm

/-! ### The PC update -/

@[simp] theorem advancePc_run (c : Config) (p k : Byte) (s : State) : (advancePc c p k s).run = s.run := rfl
@[simp] theorem advancePc_ar (c : Config) (p k : Byte) (s : State) : (advancePc c p k s).ar = s.ar := rfl
@[simp] theorem advancePc_dm (c : Config) (p k : Byte) (s : State) : (advancePc c p k s).dm = s.dm := rfl

theorem advancePc_read (c : Config) (p k : Byte) (s : State) (a : Byte) :
    (advancePc c p k s).read a = if a = pcAddr then advanceBase c p s + k else s.read a := State.read_setPc s _ a

theorem advancePc_inv {c : Config} {p k : Byte} {s : State} (h : s.Inv) : (advancePc c p k s).Inv := s.setPc_inv _ h

/-- After an instruction that has not written cell 3, both bases give p (R95). -/
theorem advanceBase_of_pc {c : Config} {p : Byte} {s : State} (h : s.pc = p) : advanceBase c p s = p := by
  unfold advanceBase; split <;> simp [h]

/-! ### The shared operations of the instructions -/

theorem addToReg_read (c : Config) (r : Reg) (v : Byte) (s : State) (a : Byte) :
    (addToReg c r v s).read a =
      if a = pcAddr then s.pc + 2#8
      else if a = flagAddr r then flagCellValue c (s.flagCell r) (addFlags (s.reg r) v)
      else if a = regAddr r then (addFlags (s.reg r) v).result
      else s.read a := by
  unfold addToReg writeFlags
  rw [advancePc_read, advanceBase_of_pc]
  · simp [State.read_write, State.read_setReg, State.flagCell]
  · simp [State.pc, State.read_write, State.read_setReg]

theorem addToReg_control (c : Config) (r : Reg) (v : Byte) (s : State) : SameControl s (addToReg c r v s) :=
  ⟨rfl, rfl, rfl⟩

theorem addToReg_inv {c : Config} {r : Reg} {v : Byte} {s : State} (h : s.Inv) : (addToReg c r v s).Inv :=
  advancePc_inv (State.write_inv _ _ (State.setReg_inv _ _ h))

/-- A register written, then AdvancePC(k): LOAD, the logic instructions and the shifts. -/
theorem advancePc_setReg_read (c : Config) (k : Byte) (r : Reg) (v : Byte) (s : State) (a : Byte) :
    (advancePc c s.pc k (s.setReg r v)).read a =
      if a = pcAddr then s.pc + k else if a = regAddr r then v else s.read a := by
  rw [advancePc_read, advanceBase_of_pc]
  · simp [State.read_setReg]
  · simp [State.pc, State.read_setReg]

/-- A byte written, then AdvancePC(2): STORE, SET0 and SET1. A write of cell 3 shows in the base. -/
theorem advancePc_write_read (c : Config) (k n v : Byte) (s : State) (a : Byte) :
    (advancePc c s.pc k (s.write n v)).read a =
      if a = pcAddr then (if n = pcAddr ∧ c.pcAdvanceBase = .currentCell then v else s.pc) + k
      else if a = n then v else s.read a := by
  rw [advancePc_read]
  by_cases ha : a = pcAddr
  · simp only [ha, if_true]
    unfold advanceBase
    split
    · rename_i hc
      by_cases hn : n = pcAddr
      · simp [hn, hc, State.pc, State.read_write]
      · simp [hn, State.pc, State.read_write, Ne.symm hn]
    · rename_i hc
      simp [hc]
  · simp [ha, State.read_write]

/-- AdvancePC(k) alone: NOOP, the skips, a jump not taken, a decode failure. -/
theorem advancePc_only_read (c : Config) (k : Byte) (s : State) (a : Byte) :
    (advancePc c s.pc k s).read a = if a = pcAddr then s.pc + k else s.read a := by
  rw [advancePc_read, advanceBase_of_pc rfl]

/-! What the same operations leave in the program counter. -/

theorem addToReg_pc (c : Config) (r : Reg) (v : Byte) (s : State) : (addToReg c r v s).pc = s.pc + 2#8 := by
  have h := addToReg_read c r v s pcAddr
  rwa [if_pos rfl] at h

theorem advancePc_setReg_pc (c : Config) (k : Byte) (r : Reg) (v : Byte) (s : State) :
    (advancePc c s.pc k (s.setReg r v)).pc = s.pc + k := by
  have h := advancePc_setReg_read c k r v s pcAddr
  rwa [if_pos rfl] at h

theorem advancePc_write_pc (c : Config) (k n v : Byte) (s : State) :
    (advancePc c s.pc k (s.write n v)).pc =
      (if n = pcAddr ∧ c.pcAdvanceBase = .currentCell then v else s.pc) + k := by
  have h := advancePc_write_read c k n v s pcAddr
  rwa [if_pos rfl] at h

theorem advancePc_only_pc (c : Config) (k : Byte) (s : State) : (advancePc c s.pc k s).pc = s.pc + k := by
  have h := advancePc_only_read c k s pcAddr
  rwa [if_pos rfl] at h

theorem skipUndecoded_read (c : Config) (s : State) (a : Byte) :
    (skipUndecoded c s).read a =
      if a = pcAddr then s.pc + BitVec.ofNat 8 (instrWidth (s.read s.pc)) else s.read a :=
  advancePc_only_read c _ s a

/-! ### The console -/

theorem onlyHalted_running {s : State} (h : s.run = .running) (a : Answer) :
    onlyHalted s a = { state := s, reply := .illegalConsoleOperation } := by simp [onlyHalted, h]

theorem onlyHalted_halted {s : State} (h : s.run = .halted) (a : Answer) : onlyHalted s a = a := by
  simp [onlyHalted, h]

end Sys2Proof.Machine
end

