-- ==== Sys2Proof/Laws/Step.lean ====
section
/-! SUPPORT. `exec` and `step` are the configured machine at `config`. -/

namespace Sys2Proof.Machine

theorem exec_effectIn (i : Instr) (s : State) : exec i s = .next (effectIn config i s) := by
  cases i <;> rfl

theorem step_stepIn (s : State) : step s = .next (stepIn config s) := by
  unfold step stepIn decode
  cases s.run with
  | halted => rfl
  | running =>
    cases decodeWith config (fetch s) with
    | ok p => exact exec_effectIn p.1 s
    | error e => rfl

theorem stepIn_halted (c : Config) {s : State} (h : s.run = .halted) : stepIn c s = s := by
  simp [stepIn, h]

theorem stepIn_decoded {c : Config} {s : State} {i : Instr} {rest : List Byte} (h : s.run = .running)
    (hd : decodeWith c (fetch s) = .ok (i, rest)) : stepIn c s = effectIn c i s := by
  simp [stepIn, h, hd]

theorem stepIn_undecoded {c : Config} {s : State} {e : DecodeError} (h : s.run = .running)
    (hd : decodeWith c (fetch s) = .error e) : stepIn c s = skipUndecoded c s := by
  simp [stepIn, h, hd]

/-- One trigger off a run. -/
theorem core_run_succ (k : Nat) (s : State) :
    Host.Core.run Sys2Proof.core (k + 1) s = Host.Core.run Sys2Proof.core k (stepIn config s) := by
  have h : Sys2Proof.core.step s = .next (stepIn config s) := step_stepIn s
  simp only [Host.Core.run, h]

theorem afterEvent_trigger (s : State) : afterEvent .trigger s = stepIn config s := by
  simp [afterEvent, step_stepIn]

end Sys2Proof.Machine
end

