-- ==== Sys2Proof/Laws/Canonical.lean ====
section
/-! SUPPORT. The canonical encodings (30_encoding.md R81): they stand for the same instruction, they are the bytes the rule
gives, and an instruction that is not an unconditional jump has only the one. -/

namespace Sys2Proof

theorem canonical_idem (i : Instr) : canonical (canonical i) = canonical i := by
  cases i <;> first | rfl | (rename_i t _ _ _; cases t <;> rfl)

theorem canonical_wellFormed (i : Instr) : (canonical i).wellFormed = i.wellFormed := by cases i <;> rfl

/-- The canonical condition is the instruction's own where the jump tests a register. -/
theorem canonicalCond_reg (r : Reg) (k : Cond) : (JumpTest.reg r).canonicalCond k = k := rfl

theorem encodeCanonical_length (i : Instr) : (encodeCanonical i).length = (encode i).length := by cases i <;> rfl

/-! The bytes of R81: JPD n = 0xE3, JPD (n) = 0xEB, JMD n = 0xF3, JMD (n) = 0xFB, whatever condition was decoded. -/

theorem encodeCanonical_jpd_direct (k : Cond) (n : Byte) :
    encodeCanonical (.jpd .unconditional k .memory n) = [0xE3#8, n] := by
  have h : packJump false .unconditional .nonZero .memory = 0xE3#8 := by decide
  simp only [encodeCanonical, canonical, JumpTest.canonicalCond, encode, encodeFirst, operandOf, Option.toList, h]

theorem encodeCanonical_jpd_indirect (k : Cond) (n : Byte) :
    encodeCanonical (.jpd .unconditional k .indirect n) = [0xEB#8, n] := by
  have h : packJump false .unconditional .nonZero .indirect = 0xEB#8 := by decide
  simp only [encodeCanonical, canonical, JumpTest.canonicalCond, encode, encodeFirst, operandOf, Option.toList, h]

theorem encodeCanonical_jmd_direct (k : Cond) (n : Byte) :
    encodeCanonical (.jmd .unconditional k .memory n) = [0xF3#8, n] := by
  have h : packJump true .unconditional .nonZero .memory = 0xF3#8 := by decide
  simp only [encodeCanonical, canonical, JumpTest.canonicalCond, encode, encodeFirst, operandOf, Option.toList, h]

theorem encodeCanonical_jmd_indirect (k : Cond) (n : Byte) :
    encodeCanonical (.jmd .unconditional k .indirect n) = [0xFB#8, n] := by
  have h : packJump true .unconditional .nonZero .indirect = 0xFB#8 := by decide
  simp only [encodeCanonical, canonical, JumpTest.canonicalCond, encode, encodeFirst, operandOf, Option.toList, h]

namespace Machine

/-- The condition of an unconditional jump is not read (44_jump.md R141). -/
theorem jumpTaken_canonicalCond (t : JumpTest) (k : Cond) (s : State) :
    jumpTaken t (t.canonicalCond k) s = jumpTaken t k s := by cases t <;> rfl

/-- An instruction and its canonical form have one effect, under every configuration. -/
theorem effectIn_canonical (c : Config) (i : Instr) (s : State) : effectIn c (canonical i) s = effectIn c i s := by
  cases i <;> simp only [canonical, effectIn, jpdIn, jmdIn, jumpTaken_canonicalCond]

theorem exec_canonical (i : Instr) (s : State) : exec (canonical i) s = exec i s := by
  rw [exec_effectIn, exec_effectIn, effectIn_canonical]

end Machine

end Sys2Proof
end

