-- ==== Sys2Proof/Laws/Flags.lean ====
section
/-! SUPPORT. What the flag byte, the flag cell and the negation hold (41_add_sub.md R112, R113). -/

namespace Sys2Proof.Machine

theorem flagByte_bit0 (o : AdderOut) : (flagByte o).getLsbD 0 = o.overflow := by
  cases o with | mk r c v => cases c <;> cases v <;> simp only [flagByte] <;> rfl

theorem flagByte_bit1 (o : AdderOut) : (flagByte o).getLsbD 1 = o.carry := by
  cases o with | mk r c v => cases c <;> cases v <;> simp only [flagByte] <;> rfl

theorem flagByte_high (o : AdderOut) (j : Nat) (hj : 2 ≤ j) : (flagByte o).getLsbD j = false := by
  cases o with | mk r c v => 
   by_cases h : j < 8
   · interval_cases j <;> cases c <;> cases v <;> simp only [flagByte] <;> rfl
   · simp at h; apply BitVec.getLsbD_of_ge; omega

theorem flagByte_toNat (o : AdderOut) : (flagByte o).toNat = 2 * o.carry.toNat + o.overflow.toNat := by
  cases o with | mk r c v => cases c <;> cases v <;> simp only [flagByte] <;> rfl

theorem flagCellValue_bit0 (c) (old) (o : AdderOut) : (flagCellValue c old o).getLsbD 0 = o.overflow := by
  unfold flagCellValue; split
  · exact flagByte_bit0 o
  · rw [BitVec.getLsbD_or, flagByte_bit0]; simp

theorem flagCellValue_bit1 (c) (old) (o : AdderOut) : (flagCellValue c old o).getLsbD 1 = o.carry := by
  unfold flagCellValue; split
  · exact flagByte_bit1 o
  · rw [BitVec.getLsbD_or, flagByte_bit1]; simp

theorem flagCellValue_high (c : Config) (old) (o : AdderOut) (j) (hj : 2 ≤ j) : (flagCellValue c old o).getLsbD j = (decide (c.ocWrite = .bits10Only) && old.getLsbD j) := by
  unfold flagCellValue; split
  · rename_i h; simp [flagByte_high o j hj, h]
  · rename_i h; simp [flagByte_high o j hj, h]
    by_cases h8 : j < 8
    · interval_cases j <;> simp
    · have : old.getLsbD j = false := BitVec.getLsbD_of_ge _ _ (by omega)
      simp [this]

theorem negated_eq_sub (v : Byte) : negated v = 0#8 - v := by
  unfold negated; apply BitVec.eq_of_toNat_eq; simp

end Sys2Proof.Machine
end

