-- ==== Sys2Proof/Laws/PerInstr.lean ====
section
/-! SUPPORT. A fact per constructor: the encoder's first byte announces the length of the encoding (30_encoding.md R60). -/

namespace Sys2Proof.Laws.EncodeLength

/-- The bytes of the encoding are as many as its first byte says. -/
def Statement (i : Instr) : Prop := (encode i).length = instrWidth (encodeFirst i)

theorem sel_packFirst (hi : BitVec 2) (mid lo : BitVec 3) : selectorField (packFirst hi mid lo) = lo := by
  revert hi mid lo; decide

theorem width_packFirst (hi : BitVec 2) (mid lo : BitVec 3) :
    instrWidth (packFirst hi mid lo) = if lo = 0b000#3 ∨ lo = 0b001#3 then 1 else 2 := by
  simp only [instrWidth, sel_packFirst]

theorem halt : Statement .halt := by unfold Statement; decide
theorem noop : Statement .noop := by unfold Statement; decide
theorem sftr (r : Reg) (n : Nat) : Statement (.sftr r n) := by simp [Statement, encode, operandOf, encodeFirst, packShift, width_packFirst]
theorem rotr (r : Reg) (n : Nat) : Statement (.rotr r n) := by simp [Statement, encode, operandOf, encodeFirst, packShift, width_packFirst]
theorem sftl (r : Reg) (n : Nat) : Statement (.sftl r n) := by simp [Statement, encode, operandOf, encodeFirst, packShift, width_packFirst]
theorem rotl (r : Reg) (n : Nat) : Statement (.rotl r n) := by simp [Statement, encode, operandOf, encodeFirst, packShift, width_packFirst]
theorem set0 (k : Nat) (b : Byte) : Statement (.set0 k b) := by simp [Statement, encode, operandOf, encodeFirst, width_packFirst]
theorem set1 (k : Nat) (b : Byte) : Statement (.set1 k b) := by simp [Statement, encode, operandOf, encodeFirst, width_packFirst]
theorem skp0 (k : Nat) (b : Byte) : Statement (.skp0 k b) := by simp [Statement, encode, operandOf, encodeFirst, width_packFirst]
theorem skp1 (k : Nat) (b : Byte) : Statement (.skp1 k b) := by simp [Statement, encode, operandOf, encodeFirst, width_packFirst]
theorem jpd (t : JumpTest) (k : Cond) (m : AddrMode) (b : Byte) : Statement (.jpd t k m b) := by
  cases k <;> simp [Statement, encode, operandOf, encodeFirst, packJump, width_packFirst, Cond.code]
theorem jmd (t : JumpTest) (k : Cond) (m : AddrMode) (b : Byte) : Statement (.jmd t k m b) := by
  cases k <;> simp [Statement, encode, operandOf, encodeFirst, packJump, width_packFirst, Cond.code]
theorem or (m : AddrMode) (b : Byte) : Statement (.or m b) := by
  cases m <;> simp [Statement, encode, operandOf, encodeFirst, width_packFirst, AddrMode.code]
theorem and (m : AddrMode) (b : Byte) : Statement (.and m b) := by
  cases m <;> simp [Statement, encode, operandOf, encodeFirst, width_packFirst, AddrMode.code]
theorem lneg (m : AddrMode) (b : Byte) : Statement (.lneg m b) := by
  cases m <;> simp [Statement, encode, operandOf, encodeFirst, width_packFirst, AddrMode.code]
theorem add (r : Reg) (m : AddrMode) (b : Byte) : Statement (.add r m b) := by
  cases m <;> simp [Statement, encode, operandOf, encodeFirst, width_packFirst, AddrMode.code]
theorem sub (r : Reg) (m : AddrMode) (b : Byte) : Statement (.sub r m b) := by
  cases m <;> simp [Statement, encode, operandOf, encodeFirst, width_packFirst, AddrMode.code]
theorem load (r : Reg) (m : AddrMode) (b : Byte) : Statement (.load r m b) := by
  cases m <;> simp [Statement, encode, operandOf, encodeFirst, width_packFirst, AddrMode.code]
theorem store (r : Reg) (m : AddrMode) (b : Byte) : Statement (.store r m b) := by
  cases m <;> simp [Statement, encode, operandOf, encodeFirst, width_packFirst, AddrMode.code]

end Sys2Proof.Laws.EncodeLength
end

