-- ==== Sys2Proof/Laws/Shift.lean ====
section
/-! SUPPORT. What k single-place shifts or rotates come to (46_shift_rotate.md R160 to R164). -/

namespace Sys2Proof.Machine

set_option maxRecDepth 10000 in
theorem shiftRightOnce_toInt : ∀ v : Byte, (shiftRightOnce v).toInt = v.toInt / 2 := by decide

theorem repeated_shiftRightOnce_toInt (k : Nat) : ∀ v : Byte, (repeated shiftRightOnce k v).toInt = v.toInt / 2^k := by
  induction k with
  | zero => intro v; simp [repeated]
  | succ k ih => intro v; rw [repeated, ih, shiftRightOnce_toInt, Int.ediv_ediv_of_nonneg (by decide), pow_succ]; ring_nf

theorem repeated_shiftLeftOnce_toNat (k : Nat) : ∀ v : Byte, (repeated shiftLeftOnce k v).toNat = v.toNat * 2^k % 256 := by
  induction k with
  | zero => intro v; have := v.isLt; simp [repeated]; omega
  | succ k ih => intro v; rw [repeated, ih]; simp only [shiftLeftOnce, BitVec.toNat_shiftLeft, Nat.shiftLeft_eq, pow_succ, pow_zero, one_mul, Nat.reducePow, Nat.reduceMul, Nat.mod_mul_mod]; congr 1; ring

set_option maxRecDepth 10000 in
theorem rotateLeftOnce_bit : ∀ v : Byte, ∀ j : Fin 8, (rotateLeftOnce v).getLsbD ((j + 1) % 8) = v.getLsbD j := by decide

set_option maxRecDepth 10000 in
theorem rotateRightOnce_bit : ∀ v : Byte, ∀ j : Fin 8, (rotateRightOnce v).getLsbD j = v.getLsbD ((j + 1) % 8) := by decide

theorem repeated_rotateLeftOnce_bit (k : Nat) : ∀ v : Byte, ∀ j, j < 8 → (repeated rotateLeftOnce k v).getLsbD ((j + k) % 8) = v.getLsbD j := by
  induction k with
  | zero => intro v j hj; simp [repeated, Nat.mod_eq_of_lt hj]
  | succ k ih =>
    intro v j hj
    rw [repeated]
    have := ih (rotateLeftOnce v) ((j+1) % 8) (Nat.mod_lt _ (by decide))
    have e : ((j+1)%8 + k) % 8 = (j + (k+1)) % 8 := by omega
    rw [e] at this
    rw [this]; exact rotateLeftOnce_bit v ⟨j, hj⟩

theorem repeated_rotateRightOnce_bit (k : Nat) : ∀ v : Byte, ∀ j, j < 8 → (repeated rotateRightOnce k v).getLsbD j = v.getLsbD ((j + k) % 8) := by
  induction k with
  | zero => intro v j hj; simp [repeated, Nat.mod_eq_of_lt hj]
  | succ k ih =>
    intro v j hj
    rw [repeated, ih _ _ hj]
    have := rotateRightOnce_bit v ⟨(j+k) % 8, Nat.mod_lt _ (by decide)⟩
    simp only at this
    rw [this]; congr 1; omega

end Sys2Proof.Machine
end

