-- ==== Sys2Proof/Tests/Slice0.lean ====
section
/-! SUPPORT. The model's own tests. Expected values come from the spec: the decode table, the step vectors and the host
sequence of 95_test_vectors.md (section and row named beside each test), or the encoding figures of 30_encoding.md. The
witnesses at the end show, for each statement with hypotheses, a state and operands that meet them together. -/

open Sys2Proof Sys2Proof.Machine

namespace Sys2Proof.Tests

/-- A RUNNING machine, zero but for the cells listed. -/
def running (cells : List (Byte × Byte)) : State :=
  cells.foldl (fun s e => s.write e.1 e.2) { State.reset with run := .running }

/-- The cells at `addrs` after one step. -/
def cellsAfter (s : State) (addrs : List Byte) : Option (List Byte) :=
  match step s with
  | .next t => some (addrs.map t.read)
  | .fault _ => none
  | .refused _ => none

/-- The run state after one step. -/
def runAfter (s : State) : Option RunState :=
  match step s with
  | .next t => some t.run
  | .fault _ => none
  | .refused _ => none

/-- The PC = 0x10 of most vectors, with the instruction's bytes there. -/
def at10 (b1 b2 : Byte) (cells : List (Byte × Byte)) : State :=
  running ([(3#8, 0x10#8), (0x10#8, b1), (0x11#8, b2)] ++ cells)

/-! ### WellFormed refuses what has no encoding -/

theorem test_wf_no_places : (Instr.sftl .a 0).wellFormed = false := by decide
theorem test_wf_five_places : (Instr.rotr .b 5).wellFormed = false := by decide
theorem test_wf_shift_of_x : (Instr.sftr .x 1).wellFormed = false := by decide
theorem test_wf_rotate_of_x : (Instr.rotl .x 4).wellFormed = false := by decide
theorem test_wf_bit_8 : (Instr.set1 8 0#8).wellFormed = false ∧ (Instr.skp0 8 0#8).wellFormed = false := by decide
theorem test_wf_jump_immediate : (Instr.jpd .unconditional .zero .immediate 0#8).wellFormed = false := by decide
theorem test_wf_jump_indexed :
    (Instr.jmd (.reg .a) .zero .indexed 0#8).wellFormed = false ∧
    (Instr.jmd (.reg .a) .zero .indirectIndexed 0#8).wellFormed = false := by decide

/-! ### Decoding: words written out from the format figures (R62 to R67) and 95_test_vectors.md 2.1 -/

theorem test_dec_halt : decode [0b0_0000_000#8] = .ok (.halt, []) := by decide
theorem test_dec_halt_ignored_bits : decode [0x78#8] = .ok (.halt, []) := by decide
theorem test_dec_noop : decode [0b1_0000_000#8] = .ok (.noop, []) := by decide
theorem test_dec_noop_not_jump : decode [0xE0#8] = .ok (.noop, []) := by decide
theorem test_dec_sftr : decode [0b0_0_1_11_001#8] = .ok (.sftr .b 4, []) := by decide
theorem test_dec_rotr : decode [0b0_1_0_00_001#8] = .ok (.rotr .a 1, []) := by decide
theorem test_dec_sftl : decode [0b1_0_1_00_001#8] = .ok (.sftl .b 1, []) := by decide
theorem test_dec_rotl : decode [0b1_1_0_11_001#8] = .ok (.rotl .a 4, []) := by decide
theorem test_dec_set0 : decode [0b0_0_111_010#8, 0x80#8] = .ok (.set0 7 0x80#8, []) := by decide
theorem test_dec_set1 : decode [0b0_1_101_010#8, 0x80#8] = .ok (.set1 5 0x80#8, []) := by decide
theorem test_dec_skp0 : decode [0b1_0_111_010#8, 0x60#8] = .ok (.skp0 7 0x60#8, []) := by decide
theorem test_dec_skp1 : decode [0b1_1_000_010#8, 0x80#8] = .ok (.skp1 0 0x80#8, []) := by decide
theorem test_dec_jpd : decode [0b01_1_0_0_101#8, 0x40#8] = .ok (.jpd (.reg .b) .lessThanZero .memory 0x40#8, []) := by
  decide
theorem test_dec_jmd : decode [0b11_1_1_1_011#8, 0x40#8] = .ok (.jmd .unconditional .nonZero .indirect 0x40#8, []) := by
  decide
theorem test_dec_or : decode [0b11_000_011#8, 0x0F#8] = .ok (.or .immediate 0x0F#8, []) := by decide
theorem test_dec_and : decode [0b11_010_100#8, 0x60#8] = .ok (.and .memory 0x60#8, []) := by decide
theorem test_dec_lneg : decode [0b11_011_111#8, 0x60#8] = .ok (.lneg .indirectIndexed 0x60#8, []) := by decide
theorem test_dec_add : decode [0b10_0_00_100#8, 0x05#8] = .ok (.add .x .memory 0x05#8, []) := by decide
theorem test_dec_sub : decode [0b10_0_01_110#8, 0x20#8] = .ok (.sub .x .indexed 0x20#8, []) := by decide
theorem test_dec_sub_reserved : decode [0xCB#8, 0x03#8] = .ok (.sub .a .immediate 0x03#8, []) := by decide
theorem test_dec_load : decode [0b01_0_10_101#8, 0x20#8, 0xAA#8] = .ok (.load .b .indirect 0x20#8, [0xAA#8]) := by decide
theorem test_dec_store : decode [0b10_0_11_111#8, 0x20#8] = .ok (.store .x .indirectIndexed 0x20#8, []) := by decide
theorem test_dec_failure :
    decodePair { reg3Sub := .decodeFailure } 0xCB#8 0x03#8 = .error (.reservedRegister3 0xCB#8) := by decide
theorem test_dec_empty : decode [] = .error .noBytes := by decide
theorem test_dec_short : decode [0x14#8] = .error (.operandMissing 0x14#8) := by decide

/-! The encoder, canonical bytes of 30_encoding.md R81. -/

theorem test_enc_canonical_jumps :
    encodeCanonical (.jpd .unconditional .zero .memory 0x40#8) = [0xE3#8, 0x40#8] ∧
    encodeCanonical (.jmd .unconditional .positive .indirect 0x40#8) = [0xFB#8, 0x40#8] ∧
    encodeCanonical (.jpd (.reg .a) .zero .memory 0x40#8) = [0x24#8, 0x40#8] := by decide
theorem test_enc_canonical_one_byte : encodeCanonical .halt = [0x00#8] ∧ encodeCanonical .noop = [0x80#8] := by decide

theorem test_enc_jmd : encode (.jmd .unconditional .nonZero .memory 0x10#8) = [0xF3#8, 0x10#8] := by decide
theorem test_enc_sub : encode (.sub .a .immediate 0x03#8) = [0x0B#8, 0x03#8] := by decide
theorem test_enc_rotr : encode (.rotr .b 4) = [0x79#8] := by decide

/-! The host's two doors. -/

theorem test_tableWord : decodeTableWord 16 0x0584 = some (.add .x .memory 0x05#8) := by decide
theorem test_tableWord_one_byte : decodeTableWord 8 0xF9 = some (.rotl .b 4) := by decide
theorem test_withFetchWord : (State.reset.withFetchWord 16 0x0584).pc = 0#8 ∧
    fetch (State.reset.withFetchWord 16 0x0584) = [0x84#8, 0x05#8] := by decide

/-! ### One step per vector -/

/-- 2.3 row 7F + 01, Scenario B. -/
theorem test_add_overflow : cellsAfter (at10 0x03#8 0x01#8 [(0#8, 0x7F#8)]) [0#8, 129#8, 3#8] =
    some [0x80#8, 0x01#8, 0x12#8] := by decide
/-- 2.3 register and flag-cell selection: X = FF, `83 01`. -/
theorem test_add_x_carry : cellsAfter (at10 0x83#8 0x01#8 [(2#8, 0xFF#8)]) [2#8, 131#8, 129#8] =
    some [0x00#8, 0x02#8, 0x00#8] := by decide
/-- 2.4 row 00 - 80: no overflow flag although the difference is not representable. -/
theorem test_sub_0x80 : cellsAfter (at10 0x0B#8 0x80#8 []) [0#8, 129#8, 3#8] =
    some [0x80#8, 0x00#8, 0x12#8] := by decide
/-- 2.4 the reserved encoding: A = 05, `CB 03`. -/
theorem test_sub_reserved : cellsAfter (at10 0xCB#8 0x03#8 [(0#8, 0x05#8)]) [0#8, 129#8, 3#8] =
    some [0x02#8, 0x02#8, 0x12#8] := by decide
/-- 2.2 wrap: X = 03, M[20] = FE, address 01 is the B register. -/
theorem test_load_wraps : cellsAfter (at10 0x17#8 0x20#8 [(2#8, 0x03#8), (0x20#8, 0xFE#8), (1#8, 0x5A#8), (0#8, 0x77#8)])
    [0#8, 3#8] = some [0x5A#8, 0x12#8] := by decide
/-- 2.2: `14 03` LOAD A, 3 reads the address of the LOAD itself. -/
theorem test_load_pc : cellsAfter (at10 0x14#8 0x03#8 []) [0#8] = some [0x10#8] := by decide
/-- 2.5: A = EE, `1B 20` writes the operand slot. -/
theorem test_store_immediate : cellsAfter (at10 0x1B#8 0x20#8 [(0#8, 0xEE#8), (0x20#8, 0x30#8)]) [0x11#8, 0x20#8, 3#8] =
    some [0xEE#8, 0x30#8, 0x12#8] := by decide
/-- 2.5: A = 40, `1C 03` continues at 42. -/
theorem test_store_pc : cellsAfter (at10 0x1C#8 0x03#8 [(0#8, 0x40#8)]) [3#8] = some [0x42#8] := by decide
/-- 2.6 row CA, 0F. -/
theorem test_and : cellsAfter (at10 0xD3#8 0x0F#8 [(0#8, 0xCA#8)]) [0#8, 3#8] = some [0x0A#8, 0x12#8] := by decide
/-- 2.6 flags untouched: A = 3C, M[60] = 0F, M[81] = 03. -/
theorem test_and_flags : cellsAfter (at10 0xD4#8 0x60#8 [(0#8, 0x3C#8), (0x60#8, 0x0F#8), (0x81#8, 0x03#8)])
    [0#8, 0x81#8] = some [0x0C#8, 0x03#8] := by decide
/-- 2.6 row F0, 3C. -/
theorem test_or : cellsAfter (at10 0xC3#8 0x3C#8 [(0#8, 0xF0#8)]) [0#8, 3#8] = some [0xFC#8, 0x12#8] := by decide
/-- 2.6: A = 05, `DC 00`, in place. -/
theorem test_lneg : cellsAfter (at10 0xDC#8 0x00#8 [(0#8, 0x05#8)]) [0#8, 3#8] = some [0xFB#8, 0x12#8] := by decide
/-- 2.7 row A = 80, PNZ (27): not taken. -/
theorem test_jpd_not_taken : cellsAfter (at10 0x27#8 0x40#8 [(0#8, 0x80#8)]) [3#8] = some [0x12#8] := by decide
/-- 2.7: M[40] = 77, `EB 40`. -/
theorem test_jpd_indirect : cellsAfter (at10 0xEB#8 0x40#8 [(0x40#8, 0x77#8)]) [3#8] = some [0x77#8] := by decide
/-- 2.7: `F3 03`, the PC overwrites the link. -/
theorem test_jmd_pc : cellsAfter (at10 0xF3#8 0x03#8 []) [3#8] = some [0x04#8] := by decide
/-- 2.7: A = 40, `F3` at FF: the operand byte is register A, the link 01. -/
theorem test_jmd_top : cellsAfter (running [(3#8, 0xFF#8), (0xFF#8, 0xF3#8), (0#8, 0x40#8)]) [0x40#8, 3#8] =
    some [0x01#8, 0x41#8] := by decide
/-- 2.8: `82 FE` at FE skips to 02. -/
theorem test_skp0_wraps : cellsAfter (running [(3#8, 0xFE#8), (0xFE#8, 0x82#8), (0xFF#8, 0xFE#8)]) [3#8] =
    some [0x02#8] := by decide
/-- 2.8: M[80] = 08, `9A 80`, bit 3 = 1. -/
theorem test_skp0_no_skip : cellsAfter (at10 0x9A#8 0x80#8 [(0x80#8, 0x08#8)]) [3#8] = some [0x12#8] := by decide
/-- 2.8: A = 80, `FA 00`. -/
theorem test_skp1 : cellsAfter (at10 0xFA#8 0x00#8 [(0#8, 0x80#8)]) [3#8] = some [0x14#8] := by decide
/-- 2.8: M[80] = FF, `3A 80`. -/
theorem test_set0 : cellsAfter (at10 0x3A#8 0x80#8 [(0x80#8, 0xFF#8)]) [0x80#8, 3#8] = some [0x7F#8, 0x12#8] := by decide
/-- 2.8: `6A 03`, cell 3 = 30, then + 2. -/
theorem test_set1_pc : cellsAfter (at10 0x6A#8 0x03#8 []) [3#8] = some [0x32#8] := by decide
/-- 2.9 row 81, SFTR, k = 4. -/
theorem test_sftr : cellsAfter (at10 0x19#8 0#8 [(0#8, 0x81#8)]) [0#8, 3#8] = some [0xF8#8, 0x11#8] := by decide
/-- 2.9 row B5, SFTL, k = 3. -/
theorem test_sftl : cellsAfter (at10 0x91#8 0#8 [(0#8, 0xB5#8)]) [0#8, 3#8] = some [0xA8#8, 0x11#8] := by decide
/-- 2.9 row 7E, ROTL, k = 3. -/
theorem test_rotl : cellsAfter (at10 0xD1#8 0#8 [(0#8, 0x7E#8)]) [0#8, 3#8] = some [0xF3#8, 0x11#8] := by decide
/-- 2.9: B = 12, `79`. -/
theorem test_rotr_b : cellsAfter (at10 0x79#8 0#8 [(1#8, 0x12#8)]) [1#8, 0#8] = some [0x21#8, 0x00#8] := by decide
/-- 2.10: M[FF] = 80, PC = FF. -/
theorem test_noop_wraps : cellsAfter (running [(3#8, 0xFF#8), (0xFF#8, 0x80#8)]) [3#8] = some [0x00#8] := by decide
/-- 2.10: M[10] = 78, Scenario D. -/
theorem test_halt : cellsAfter (at10 0x78#8 0#8 []) [3#8] = some [0x11#8] ∧ runAfter (at10 0x78#8 0#8 []) = some .halted := by
  decide
/-- 2.10: a step while HALTED is a no-op. -/
theorem test_halted_step : cellsAfter { at10 0x80#8 0#8 [] with run := .halted } [3#8] = some [0x10#8] := by decide
/-- 2.10: `03` at FF, the operand byte is M[00] = A = 21. -/
theorem test_add_top : cellsAfter (running [(3#8, 0xFF#8), (0xFF#8, 0x03#8), (0#8, 0x21#8)]) [0#8, 3#8] =
    some [0x42#8, 0x01#8] := by decide

/-! ### The other readings of the parameters, by the same vectors -/

/-- 2.4: under DecodeFailure `CB 03` is skipped, and reported with p and b1. -/
theorem test_reg3_decode_failure :
    (stepIn { reg3Sub := .decodeFailure } (at10 0xCB#8 0x03#8 [(0#8, 0x05#8)])).read 0#8 = 0x05#8 ∧
    (stepIn { reg3Sub := .decodeFailure } (at10 0xCB#8 0x03#8 [(0#8, 0x05#8)])).pc = 0x12#8 ∧
    stepReport { reg3Sub := .decodeFailure } (at10 0xCB#8 0x03#8 []) = [.decodeFailure 0x10#8 0xCB#8] := by decide
/-- 2.5: under OperandValue `1B 20` writes M[20]. -/
theorem test_store_operand_value :
    (stepIn { storeImmEA := .operandValue } (at10 0x1B#8 0x20#8 [(0#8, 0xEE#8)])).read 0x20#8 = 0xEE#8 := by decide
/-- 2.5: under FetchTime a store to 3 goes on at p + 2. -/
theorem test_store_pc_fetch_time :
    (stepIn { pcAdvanceBase := .fetchTime } (at10 0x1C#8 0x03#8 [(0#8, 0x40#8)])).pc = 0x12#8 := by decide
/-- 2.3: under Bits10Only the high bits of the flag cell stay. -/
theorem test_flags_bits10 :
    (stepIn { ocWrite := .bits10Only } (at10 0x03#8 0x01#8 [(0#8, 0xFF#8), (0x81#8, 0xFC#8)])).read 0x81#8 = 0xFE#8 := by
  decide

/-! ### Host operations (2.11, rows 2 to 16 in pieces) -/

theorem test_host_input : ((afterEvents [.console (.writeInputRegister 0x5A#8), .console (.toggleInputBit 3),
    .console (.toggleInputBit 0)] State.reset).input) = 0x53#8 := by decide
theorem test_host_store : (afterEvents (enterProgram 0x03#8 [0x04#8, 0x80#8]) State.reset).mem =
      [(3, 0x04#8), (4, 0x80#8), (255, 0x80#8)] ∧
    (afterEvents (enterProgram 0x03#8 [0x04#8, 0x80#8]) State.reset).ar = 0x05#8 := by decide
/-- The AR wrap below the table. -/
theorem test_host_read_wraps : consoleOp .readMemoryAtAddressRegister
      { (State.reset.write 0xFF#8 0xC3#8) with ar := 0xFF#8 } =
    { state := { (State.reset.write 0xFF#8 0xC3#8) with ar := 0x00#8 }, reply := .byte 0xC3#8 } := by decide
/-- Rows 14 to 16 and Scenario E. -/
theorem test_host_refused : consoleOp .storeInputToAddressRegister { running [(0xFF#8, 0x99#8)] with ar := 0x20#8 } =
    { state := { running [(0xFF#8, 0x99#8)] with ar := 0x20#8 }, reply := .illegalConsoleOperation } := by decide
/-- Row 17: input is written while RUNNING. -/
theorem test_host_input_running : (consoleOp (.writeInputRegister 0xC3#8) (running [])).state.input = 0xC3#8 := by decide
theorem test_host_snapshot : State.reset.snapshot.isRunning = false ∧ State.reset.snapshot.memory[255]? = some 0#8 ∧
    State.reset.snapshot.memory[256]? = none := ⟨by decide, rfl, rfl⟩

/-! ### Witnesses: the hypotheses of each statement, met together -/

theorem wit_StepKeepsCanonicalMemory : ∃ s t : State, s.Inv ∧ step s = .next t ∧ t.read 0#8 ≠ s.read 0#8 :=
  ⟨at10 0x03#8 0x01#8 [], _, by decide, rfl, by decide⟩
theorem wit_EventSequencesKeepCanonicalMemory :
    (running [(0xFF#8, 0x01#8)]).Inv ∧
    afterEvents [.console (.toggleInputBit 0), .trigger] (running [(0xFF#8, 0x01#8)]) ≠ running [(0xFF#8, 0x01#8)] := by
  decide
theorem wit_CanonicalMemoriesEqualWhenReadsAgree :
    let m : Memory := [(0, 1#8), (255, 2#8)]
    m.wf = true ∧ ∀ a : Byte, m.read a.toNat = m.read a.toNat := ⟨by decide, fun _ => rfl⟩
theorem wit_MemoryWriteStoresOneByte : (running [(0#8, 1#8)]).Inv ∧ (0#8 : Byte) ≠ 255#8 := by decide
theorem wit_AddressOutOfRangeIsHarmless : 256 ≤ 256 ∧ accessReport 256 = [.addressOutOfRange 256] := by decide
theorem wit_DecodeEncodeRoundTrip : (Instr.skp1 7 0xFF#8).wellFormed = true ∧ (Instr.sftl .b 4).wellFormed = true ∧
    (Instr.jmd .unconditional .positiveNonZero .indirect 0#8).wellFormed = true := by decide
theorem wit_EncodeGivesBackTheBytes : decodePair config 0x84#8 0x05#8 = .ok (.add .x .memory 0x05#8) ∧
    selectorField 0x84#8 ≠ 0#3 ∧ reservedByte 0x84#8 = false := by decide
theorem wit_EncodeGivesBackTheBytes_one : decodePair config 0x79#8 0#8 = .ok (.rotr .b 4) ∧
    selectorField 0x79#8 ≠ 0#3 ∧ reservedByte 0x79#8 = false ∧ instrWidth 0x79#8 = 1 := by decide
theorem wit_DecodeFailsOnlyOnReservedBytes : config.reg3Sub = .aliasA ∧ reservedByte 0xCB#8 = true ∧
    reservedByte 0xCF#8 = true ∧ reservedByte 0xCA#8 = false ∧ reservedByte 0xD0#8 = false := by decide
theorem wit_OperandByteIsCopiedUnchanged : decodePair config 0xC2#8 0xFF#8 = .ok (.skp1 0 0xFF#8) ∧
    decodePair config 0x00#8 0xFF#8 = .ok .halt := by decide
theorem wit_LengthFromLowThreeBits : decodeWith config [0x00#8, 0x14#8] = .ok (.halt, [0x14#8]) ∧
    decodeWith config [0x14#8, 0x05#8, 0x00#8] = .ok (.load .a .memory 0x05#8, [0x00#8]) := by decide
theorem wit_StepRunsDecodedInstruction :
    (at10 0x14#8 0x05#8 []).run = .running ∧
    decode [(at10 0x14#8 0x05#8 []).read 0x10#8, (at10 0x14#8 0x05#8 []).read 0x11#8] = .ok (.load .a .memory 0x05#8, []) ∧
    (at10 0x14#8 0x05#8 []).pc = 0x10#8 := by decide
theorem wit_StepRunsDecodedInstruction_undecoded : (at10 0xCF#8 0x05#8 []).run = .running ∧
    decodeWith { reg3Sub := .decodeFailure }
      [(at10 0xCF#8 0x05#8 []).read (at10 0xCF#8 0x05#8 []).pc, (at10 0xCF#8 0x05#8 []).read ((at10 0xCF#8 0x05#8 []).pc + 1#8)]
      = .error (.reservedRegister3 0xCF#8) := by decide
theorem wit_EncodedInstructionAtPcRuns :
    let i := Instr.add .a .immediate 0x21#8
    let s := running [(3#8, 0xFF#8), (0xFF#8, 0x03#8), (0#8, 0x21#8)]
    i.wellFormed = true ∧ s.run = .running ∧
    ∀ k, (h : k < (encode i).length) → s.read (s.pc + BitVec.ofNat 8 k) = (encode i)[k] := by decide
theorem wit_HaltedMachineKeepsItsState : State.reset.run = .halted := by decide
theorem wit_DecodeFailureIsSkipped : (at10 0xCB#8 0x05#8 []).run = .running ∧
    decodeWith { reg3Sub := .decodeFailure } (fetch (at10 0xCB#8 0x05#8 [])) = .error (.reservedRegister3 0xCB#8) := by
  decide
theorem wit_EffectiveAddressOfEachMode : ({} : Config).storeImmEA = .operandSlot ∧
    ({ storeImmEA := .operandValue } : Config).storeImmEA = .operandValue := by decide
theorem wit_EffectiveValueIsReadAtEffectiveAddress :
    (at10 0x1B#8 0x20#8 []).read ((at10 0x1B#8 0x20#8 []).pc + 1#8) = 0x20#8 := by decide
theorem wit_SubFlagsInClosedForm : ∃ t : State,
    exec (.sub .a .immediate 0x7F#8) (running [(0#8, 0x80#8)]) = .next t ∧ (t.flagCell .a).getLsbD 0 = true ∧
    (t.flagCell .a).getLsbD 1 = true := ⟨_, rfl, by decide, by decide⟩
theorem wit_SubFlagsInClosedForm_zero : ∃ t : State,
    exec (.sub .a .immediate 0#8) (running [(0#8, 0x80#8)]) = .next t ∧ (t.flagCell .a).getLsbD 1 = false :=
  ⟨_, rfl, by decide⟩
theorem wit_StoreWritesTheEffectiveAddress :
    effectiveAddress config .memory 3#8 (running []) = pcAddr ∧
    effectiveAddress config .memory 0xFF#8 (running []) ≠ pcAddr ∧
    effectiveAddress config .immediate 3#8 (running []) ≠ pcAddr := by decide
theorem wit_PcCellWriteUnderEachReading :
    effectiveAddress { pcAdvanceBase := .fetchTime } .indexed 0xFF#8 (running [(2#8, 4#8)]) = pcAddr ∧
    effectiveAddress config .immediate 0#8 (running [(3#8, 2#8)]) = pcAddr := by decide
theorem wit_JmdStoresTheReturnAddress :
    (0x50#8 : Byte) = (if true then (running [(0x40#8, 0x50#8)]).read 0x40#8 else 0x40#8) ∧
    jumpTaken .unconditional .zero (running []) = true ∧ jumpTaken (.reg .a) .nonZero (running []) = false := by decide
theorem wit_JmdStoresTheReturnAddress_pc : (3#8 : Byte) = (if false then (running []).read 3#8 else 3#8) ∧ 3#8 = pcAddr := by
  decide
theorem wit_SkipsTestOneBit : (0 : Nat) < 8 ∧ (7 : Nat) < 8 ∧
    (((running [(0x80#8, 0x80#8)]).read 0x80#8).toNat / 2 ^ 7 % 2 = 1) ∧
    (((running [(0x80#8, 0x80#8)]).read 0x80#8).toNat / 2 ^ 0 % 2 = 0) := by decide
theorem wit_SetsWriteOneBit : (7 : Nat) < 8 ∧
    ∀ j, j < 8 → (0x85#8 : Byte).getLsbD j = if j = 7 then true else ((running [(0x80#8, 0x05#8)]).read 0x80#8).getLsbD j := by
  decide
theorem wit_SetsWriteOneBit_pc : (4 : Nat) < 8 ∧
    ∀ j, j < 8 → (0x00#8 : Byte).getLsbD j = if j = 4 then false else ((running [(3#8, 0x10#8)]).read pcAddr).getLsbD j := by
  decide
theorem wit_Shifts : (Instr.sftr .a 1).wellFormed = true ∧ (Instr.sftr .b 4).wellFormed = true ∧
    (Instr.sftl .a 1).wellFormed = true ∧ (Instr.sftl .b 4).wellFormed = true ∧
    (Instr.rotl .a 1).wellFormed = true ∧ (Instr.rotl .b 4).wellFormed = true := by decide
theorem wit_RotatesUndoEachOther : ∃ t u : State, exec (.rotl .b 3) (running [(1#8, 0xB5#8)]) = .next t ∧
    exec (.rotr .b 3) t = .next u ∧ t.reg .b = 0xAD#8 ∧ u.reg .b = 0xB5#8 := ⟨_, _, rfl, rfl, by decide, by decide⟩
theorem wit_RegistersAndFlagsChangeOnlyAsListed : ∃ t : State,
    exec (.add .b .immediate 0x80#8) (running [(1#8, 0x80#8)]) = .next t ∧
    t.flagCell .b ≠ (running [(1#8, 0x80#8)]).flagCell .b ∧ t.reg .b ≠ (running [(1#8, 0x80#8)]).reg .b :=
  ⟨_, rfl, by decide, by decide⟩
theorem wit_RegistersAndFlagsChangeOnlyAsListed_stored : ∃ t u : State,
    exec (.set1 0 0x80#8) (running []) = .next t ∧ t.out ≠ (running []).out ∧
    exec (.jmd .unconditional .zero .memory 0xFF#8) (running []) = .next u ∧ u.input ≠ (running []).input :=
  ⟨_, _, rfl, by decide, rfl, by decide⟩
theorem wit_PcAdvancesByTheLength : ∃ t : State,
    exec (.jpd (.reg .a) .nonZero .memory 0x40#8) (running []) = .next t ∧
    jumps (.jpd (.reg .a) .nonZero .memory 0x40#8) (running []) = false ∧
    storedAddress config (.jpd (.reg .a) .nonZero .memory 0x40#8) (running []) ≠ some pcAddr ∧
    ∀ (k : Nat) (n : Byte), Instr.jpd (.reg .a) .nonZero .memory 0x40#8 ≠ .skp0 k n ∧
      Instr.jpd (.reg .a) .nonZero .memory 0x40#8 ≠ .skp1 k n :=
  ⟨_, rfl, by decide, by decide, fun _ _ => ⟨by simp, by simp⟩⟩
theorem wit_RunStateChangesOnlyByHaltStartStop : ∃ t : State, exec .halt (running []) = .next t ∧ t.run ≠ (running []).run ∧
    (consoleOp .start State.reset).state.run ≠ State.reset.run ∧
    (consoleOp .stop (running [])).state.run ≠ (running []).run := ⟨_, rfl, by decide, by decide, by decide⟩
theorem wit_ParametersMatterOnlyAtTheirForms : decode (fetch (at10 0x1C#8 0x20#8 [])) = .ok (.store .a .memory 0x20#8, []) ∧
    reservedByte ((at10 0x1C#8 0x20#8 []).read (at10 0x1C#8 0x20#8 []).pc) = false ∧
    parameterForm (.store .a .memory 0x20#8) (at10 0x1C#8 0x20#8 []) = false := by decide
theorem wit_SetThenSkipAlwaysSkips : (7 : Nat) < 8 ∧ (2#8 : Byte) ≠ pcAddr ∧ (4#8 : Byte) ≠ pcAddr := by decide
theorem wit_IndirectJumpReturnsFromJmd : (0x40#8 : Byte) ≠ pcAddr ∧ ∃ t : State,
    exec (.jmd .unconditional .zero .memory 0x40#8) (at10 0xF4#8 0x40#8 []) = .next t ∧
    (running [(0x40#8, 0x12#8)]).read 0x40#8 = t.read 0x40#8 := ⟨by decide, _, rfl, by decide⟩
theorem wit_StoreIsSeenByTheNextFetch :
    effectiveAddress config .memory 0x12#8 (at10 0x1C#8 0x12#8 []) = (at10 0x1C#8 0x12#8 []).pc + 2#8 ∧
    effectiveAddress config .memory 0x12#8 (at10 0x1C#8 0x12#8 []) ≠ pcAddr := by decide
theorem wit_StoreIsSeenByTheNextFetch_operand : ∃ t : State,
    exec (.store .a .memory 0x13#8) (at10 0x1C#8 0x13#8 [(0#8, 5#8), (0x12#8, 0x14#8)]) = .next t ∧
    effectiveAddress config .memory 0x13#8 (at10 0x1C#8 0x13#8 [(0#8, 5#8), (0x12#8, 0x14#8)]) = 0x13#8 ∧
    instrWidth (t.read t.pc) = 2 ∧ fetch t = [0x14#8, 5#8] := ⟨_, rfl, by decide, by decide, by decide⟩
theorem wit_JumpToItselfNeverHalts : (at10 0xE3#8 0x10#8 []).Inv ∧ (at10 0xE3#8 0x10#8 []).run = .running ∧
    0xE3 ≤ ((at10 0xE3#8 0x10#8 []).read (at10 0xE3#8 0x10#8 []).pc).toNat ∧
    ((at10 0xE3#8 0x10#8 []).read (at10 0xE3#8 0x10#8 []).pc).toNat ≤ 0xE7 ∧
    (at10 0xE3#8 0x10#8 []).read ((at10 0xE3#8 0x10#8 []).pc + 1#8) = (at10 0xE3#8 0x10#8 []).pc := by decide
theorem wit_StartAndStopSetOnlyRun : (running []).run = .running ∧ State.reset.run = .halted := by decide
theorem wit_InputOperationsWriteOnlyInput : (7 : Nat) < 8 ∧ 8 ≤ 8 ∧
    (consoleOp (.toggleInputBit 7) State.reset).state.input = 0x80#8 ∧
    consoleOp (.toggleInputBit 8) State.reset = { state := State.reset, reply := .callRefused } := by decide
theorem wit_AddressRegisterOperations : ({ State.reset with ar := 0xFF#8 } : State).run = .halted ∧ (running []).run = .running := by
  decide
theorem wit_RunningMachineIsClosedToTheConsole : (running []).run = .running ∧
    consoleReport (.loadCell 0#8 1#8) (running []) = [.illegalConsoleOperation] := by decide
theorem wit_ProgramEnteredByHand : State.reset.run = .halted ∧ (0xFE#8 : Byte).toNat + [0x80#8].length ≤ 255 ∧
    (afterEvents (enterProgram 0xFE#8 [0x80#8]) State.reset).ar = 0xFF#8 := by decide

end Sys2Proof.Tests
end

/-! ### Reset state and run state (10_state.md R19, R30, R31) -/

namespace Sys2Proof.Machine

/-! What the state after construction reads as. -/

@[simp] theorem Memory.read_nil (a : Nat) : Memory.read [] a = 0#8 := by simp [Memory.read]

@[simp] theorem State.resetIn_read (c : Config) (a : Byte) : (State.resetIn c).read a = 0#8 := Memory.read_nil _

/-- Settles O1: every register is a cell, and the memory of the reset state lists no cell. -/
theorem resetCellsAreZeroAndHalted : Obligations.ResetCellsAreZeroAndHalted := by
  unfold Obligations.ResetCellsAreZeroAndHalted
  refine ⟨State.resetIn_read, fun c r => ⟨?reg, ?flagCell⟩, fun c => ⟨?pc, ?out, ?input, State.resetIn_run c⟩, rfl⟩
  case reg => exact State.resetIn_read c (regAddr r)
  case flagCell => exact State.resetIn_read c (flagAddr r)
  case pc => exact State.resetIn_read c pcAddr
  case out => exact State.resetIn_read c outAddr
  case input => exact State.resetIn_read c inAddr

/-! What an instruction leaves of the state outside memory, and what the memory it leaves depends on. Only the jumps
branch on the state. -/

theorem jpdIn_control (c : Config) (t : JumpTest) (k : Cond) (m : AddrMode) (b : Byte) (s : State) :
    SameControl s (jpdIn c t k m b s) := by
  unfold jpdIn; split <;> exact ⟨rfl, rfl, rfl⟩

theorem jmdIn_control (c : Config) (t : JumpTest) (k : Cond) (m : AddrMode) (b : Byte) (s : State) :
    SameControl s (jmdIn c t k m b s) := by
  unfold jmdIn; split <;> exact ⟨rfl, rfl, rfl⟩

/-- Every instruction but HALT keeps RUN, AR and DM. -/
theorem effectIn_control (c : Config) {i : Instr} (s : State) (h : i ≠ .halt) : SameControl s (effectIn c i s) := by
  cases i with
  | halt => exact absurd rfl h
  | jpd t k m b => exact jpdIn_control c t k m b s
  | jmd t k m b => exact jmdIn_control c t k m b s
  | _ => exact ⟨rfl, rfl, rfl⟩

@[simp] theorem effectIn_halt_run (c : Config) (s : State) : (effectIn c .halt s).run = .halted := rfl

@[simp] theorem effectIn_ar (c : Config) (i : Instr) (s : State) : (effectIn c i s).ar = s.ar := by
  obtain rfl | h := eq_or_ne i .halt
  · rfl
  · obtain ⟨-, har, -⟩ := effectIn_control c s h
    exact har

theorem jumpTaken_congr_mem {s t : State} (h : s.mem = t.mem) (j : JumpTest) (k : Cond) :
    jumpTaken j k s = jumpTaken j k t := by
  cases j with
  | reg r => simp only [jumpTaken, State.reg, State.read, h]
  | unconditional => rfl

/-- The memory an instruction leaves depends on the memory it finds alone: no instruction reads RUN, AR or DM. -/
theorem effectIn_congr_mem (c : Config) (i : Instr) {s t : State} (h : s.mem = t.mem) :
    (effectIn c i s).mem = (effectIn c i t).mem := by
  have taken (j k) := jumpTaken_congr_mem h j k
  obtain ⟨mem, run, ar, dm⟩ := s
  obtain rfl : mem = t.mem := h
  cases i with
  | jpd j k m b => simp only [effectIn, jpdIn, taken]; split <;> rfl
  | jmd j k m b => simp only [effectIn, jmdIn, taken]; split <;> rfl
  | _ => rfl

/-! What a console operation does to RUN. -/

/-- An operation refused while RUNNING keeps RUN when its effect while HALTED does. -/
theorem onlyHalted_run {s : State} {a : Answer} (h : a.state.run = s.run) : (onlyHalted s a).state.run = s.run := by
  cases hr : s.run with
  | running => simp [onlyHalted_running hr, hr]
  | halted => simp [onlyHalted_halted hr, h, hr]

theorem toggleInputOp_run (n : Nat) (s : State) : (toggleInputOp n s).state.run = s.run := by
  unfold toggleInputOp; split <;> rfl

/-- Every console operation but start and stop keeps RUN. -/
theorem consoleOp_run {op : ConsoleOp} (s : State) (hstart : op ≠ .start) (hstop : op ≠ .stop) :
    (consoleOp op s).state.run = s.run := by
  cases op with
  | start => exact absurd rfl hstart
  | stop => exact absurd rfl hstop
  | toggleInputBit n => exact toggleInputOp_run n s
  | setAddressRegister => exact onlyHalted_run rfl
  | readMemoryAtAddressRegister => exact onlyHalted_run rfl
  | storeInputToAddressRegister => exact onlyHalted_run rfl
  | loadCell a v => exact onlyHalted_run rfl
  | writeInputRegister v => rfl
  | clearInputRegister => rfl
  | getAddressRegister => rfl
  | snapshot => rfl

/-- Settles O48: who keeps RUN, turned round, and the independence of an instruction's effect from it. -/
theorem runStateChangesOnlyByHaltStartStop : Obligations.RunStateChangesOnlyByHaltStartStop := by
  unfold Obligations.RunStateChangesOnlyByHaltStartStop
  refine ⟨State.resetIn_run config, ?instruction, ?console, ?independent⟩
  case instruction =>
    intro i s t hexec hrun
    obtain rfl : effectIn config i s = t := by simpa [exec_effectIn] using hexec
    obtain rfl | hi := eq_or_ne i .halt
    · exact ⟨rfl, effectIn_halt_run config s⟩
    · obtain ⟨hkept, -, -⟩ := effectIn_control config s hi
      exact absurd hkept hrun
  case console =>
    intro op s hrun
    obtain rfl | hstart := eq_or_ne op .start
    · exact .inl ⟨rfl, rfl⟩
    obtain rfl | hstop := eq_or_ne op .stop
    · exact .inr ⟨rfl, rfl⟩
    · exact absurd (consoleOp_run s hstart hstop) hrun
  case independent =>
    intro i s t x hexec
    obtain rfl : effectIn config i s = t := by simpa [exec_effectIn] using hexec
    exact ⟨_, exec_effectIn i _, effectIn_congr_mem config i rfl, by simp⟩

end Sys2Proof.Machine

/-! ### The length of an instruction (30_encoding.md R60) -/

namespace Sys2Proof

@[simp] theorem selectorField_toNat (b1 : Byte) : (selectorField b1).toNat = b1.toNat % 8 := by
  simp [selectorField]

theorem instrWidth_eq_mod (b1 : Byte) :
    instrWidth b1 = if b1.toNat % 8 = 0 ∨ b1.toNat % 8 = 1 then 1 else 2 := by
  simp [instrWidth, BitVec.toNat_eq]

theorem instrWidth_eq_two_of_ne_one {b1 : Byte} (h : instrWidth b1 ≠ 1) : instrWidth b1 = 2 := by
  unfold instrWidth at h ⊢
  split at h
  · exact absurd rfl h
  · exact if_neg ‹_›

/-- What a list the decoder accepts is: the bytes of one instruction, as the length of its first byte says, before the
bytes left over. -/
theorem decodeWith_cases {c : Config} {bytes rest : List Byte} {i : Instr} (h : decodeWith c bytes = .ok (i, rest)) :
    (∃ b1, bytes = b1 :: rest ∧ instrWidth b1 = 1 ∧ decodePair c b1 0#8 = .ok i) ∨
    (∃ b1 b2, bytes = b1 :: b2 :: rest ∧ instrWidth b1 = 2 ∧ decodePair c b1 b2 = .ok i) := by
  match bytes with
  | [] => simp [decodeWith] at h
  | b1 :: tail =>
    by_cases hw : instrWidth b1 = 1
    case pos =>
      cases hp : decodePair c b1 0#8 with
      | error e => simp [decodeWith, hw, hp] at h
      | ok j =>
        obtain ⟨rfl, rfl⟩ : j = i ∧ tail = rest := by simpa [decodeWith, hw, hp] using h
        exact .inl ⟨b1, rfl, hw, hp⟩
    case neg =>
      match tail with
      | [] => simp [decodeWith, hw] at h
      | b2 :: tail' =>
        cases hp : decodePair c b1 b2 with
        | error e => simp [decodeWith, hw, hp] at h
        | ok j =>
          obtain ⟨rfl, rfl⟩ : j = i ∧ tail' = rest := by simpa [decodeWith, hw, hp] using h
          exact .inr ⟨b1, b2, rfl, instrWidth_eq_two_of_ne_one hw, hp⟩

/-- Settles O15: the selector is the first byte modulo 8, and an accepted list is one of the decoder's two cases. -/
theorem lengthFromLowThreeBits : Obligations.LengthFromLowThreeBits := by
  unfold Obligations.LengthFromLowThreeBits
  refine ⟨instrWidth_eq_mod, fun c bytes rest i h => ?_⟩
  obtain ⟨b1, rfl, hw, -⟩ | ⟨b1, b2, rfl, hw, -⟩ := decodeWith_cases h
  · exact ⟨b1, rfl, by simp [hw], by simp only [List.length_cons, hw]; omega⟩
  · exact ⟨b1, rfl, by simp [hw], by simp only [List.length_cons, hw]; omega⟩

end Sys2Proof

/-! ### The resolver's sums (40_step_and_addressing.md R98, R101) -/

namespace Sys2Proof.Machine

/-- R101: the sum of two bytes, taken as unsigned numbers and reduced modulo 256, is the byte addition. -/
theorem ofNat_add_mod_eq_add (x y : Byte) : BitVec.ofNat 8 ((x.toNat + y.toNat) % 256) = x + y :=
  BitVec.eq_of_toNat_eq (by simp)

/-- Settles O21: the five rows of the resolver, the wrapped sums of the two INDEXED rows written as byte additions. -/
theorem effectiveValueOfEachMode : Obligations.EffectiveValueOfEachMode := by
  unfold Obligations.EffectiveValueOfEachMode
  intro b s
  rw [ofNat_add_mod_eq_add b (s.reg .x), ofNat_add_mod_eq_add (s.read b) (s.reg .x)]
  exact ⟨rfl, rfl, rfl, rfl, rfl⟩

end Sys2Proof.Machine

/-! ### The decode failure (30_encoding.md R76, R78; 40_step_and_addressing.md R94) -/

namespace Sys2Proof

@[simp] theorem registerField_toNat (b1 : Byte) : (registerField b1).toNat = b1.toNat / 64 := by
  simp [registerField, Nat.shiftRight_eq_div_pow]; omega

@[simp] theorem highField_toNat (b1 : Byte) : (highField b1).toNat = b1.toNat / 8 := by
  simp [highField, Nat.shiftRight_eq_div_pow]; omega

/-! The selectors that name no other format have an entry in both code tables. -/

theorem addrMode_ofCode_ne_none {c : BitVec 3} (hz : c ≠ 0b000#3) (hsh : c ≠ 0b001#3) (hbt : c ≠ 0b010#3) :
    AddrMode.ofCode c ≠ none := by
  revert c; decide

theorem cond_ofCode_ne_none {c : BitVec 3} (hz : c ≠ 0b000#3) (hsh : c ≠ 0b001#3) (hbt : c ≠ 0b010#3) :
    Cond.ofCode c ≠ none := by
  revert c; decide

/-- Only register code 11 names no register. -/
theorem reg_ofCode_eq_none {c : BitVec 2} (h : Reg.ofCode c = none) : c = 0b11#2 := by
  revert c; decide

/-- Format J fails only on a selector without a condition. -/
theorem decodeJump_error {b1 b2 : Byte} {e : DecodeError} (h : decodeJump b1 b2 = .error e) :
    Cond.ofCode (selectorField b1) = none := by
  cases hk : Cond.ofCode (selectorField b1) with
  | none => rfl
  | some k => simp [decodeJump, hk] at h

/-- Formats LG and AR fail only on a selector without an addressing mode, or, under REG3_SUB = DecodeFailure, on a
register code 11 that is no logic instruction's. -/
theorem decodeOperation_error {c : Config} {b1 b2 : Byte} {e : DecodeError} (h : decodeOperation c b1 b2 = .error e) :
    AddrMode.ofCode (selectorField b1) = none ∨
    (c.reg3Sub = .decodeFailure ∧ registerField b1 = 0b11#2 ∧
      highField b1 ≠ 0b11000#5 ∧ highField b1 ≠ 0b11010#5 ∧ highField b1 ≠ 0b11011#5) := by
  cases hmode : AddrMode.ofCode (selectorField b1) with
  | none => exact .inl rfl
  | some m =>
    cases hreg : Reg.ofCode (registerField b1) with
    | some r => simp only [decodeOperation, hmode, hreg] at h; split_ifs at h
    | none =>
      cases hc : c.reg3Sub with
      | aliasA => simp only [decodeOperation, hmode, hreg, hc] at h; split_ifs at h
      | decodeFailure =>
        simp only [decodeOperation, hmode, hreg, hc] at h
        split_ifs at h with hor hand hlneg
        exact .inr ⟨rfl, reg_ofCode_eq_none hreg, hor, hand, hlneg⟩

namespace Machine

/-- The fields that leave only register code 11 with SUB are those of 0xCB..0xCF: bits[7:3] are then 11001, and
bits[2:0] at least 011. -/
theorem reservedByte_of_fields {b1 : Byte} (hz : selectorField b1 ≠ 0b000#3) (hsh : selectorField b1 ≠ 0b001#3)
    (hbt : selectorField b1 ≠ 0b010#3) (hj : ¬ b1.getLsbD 5) (hreg : registerField b1 = 0b11#2)
    (hor : highField b1 ≠ 0b11000#5) (hand : highField b1 ≠ 0b11010#5) (hlneg : highField b1 ≠ 0b11011#5) :
    reservedByte b1 = true := by
  simp only [← BitVec.testBit_toNat, Nat.testBit_eq_decide_div_mod_eq, decide_eq_true_eq] at hj
  simp only [ne_eq, BitVec.toNat_eq, selectorField_toNat, registerField_toNat, highField_toNat,
    BitVec.toNat_ofNat] at hz hsh hbt hreg hor hand hlneg
  simp only [reservedByte, decide_eq_true_eq]
  omega

/-- 30_encoding.md R78: a byte pair fails to decode only under REG3_SUB = DecodeFailure, on a reserved first byte. -/
theorem decodePair_error {c : Config} {b1 b2 : Byte} {e : DecodeError} (h : decodePair c b1 b2 = .error e) :
    c.reg3Sub = .decodeFailure ∧ reservedByte b1 = true := by
  unfold decodePair at h
  split_ifs at h with hz hsh hbt hj
  case pos => exact absurd (decodeJump_error h) (cond_ofCode_ne_none hz hsh hbt)
  case neg =>
    obtain hmode | ⟨hc, hreg, hor, hand, hlneg⟩ := decodeOperation_error h
    · exact absurd hmode (addrMode_ofCode_ne_none hz hsh hbt)
    · exact ⟨hc, reservedByte_of_fields hz hsh hbt hj hreg hor hand hlneg⟩

theorem instrWidth_of_reservedByte {b1 : Byte} (h : reservedByte b1 = true) : instrWidth b1 = 2 := by
  obtain ⟨hlo, hhi⟩ : 0xCB ≤ b1.toNat ∧ b1.toNat ≤ 0xCF := by simpa [reservedByte] using h
  rw [instrWidth_eq_mod, if_neg (by omega)]

/-- A fetch is never too short, so its bytes fail to decode only because the pair does. -/
theorem decodeWith_fetch_error {c : Config} {s : State} {e : DecodeError} (h : decodeWith c (fetch s) = .error e) :
    ∃ b2, decodePair c (s.read s.pc) b2 = .error e := by
  by_cases hw : instrWidth (s.read s.pc) = 1
  case pos =>
    refine ⟨0#8, ?_⟩
    cases hp : decodePair c (s.read s.pc) 0#8 with
    | ok i => simp [fetch, decodeWith, hw, hp] at h
    | error e' => simpa [fetch, decodeWith, hw, hp] using h
  case neg =>
    refine ⟨s.read (s.pc + 1#8), ?_⟩
    cases hp : decodePair c (s.read s.pc) (s.read (s.pc + 1#8)) with
    | ok i => simp [fetch, decodeWith, hw, hp] at h
    | error e' => simpa [fetch, decodeWith, hw, hp] using h

theorem stepReport_undecoded {c : Config} {s : State} {e : DecodeError} (h : s.run = .running)
    (hd : decodeWith c (fetch s) = .error e) : stepReport c s = [.decodeFailure s.pc (s.read s.pc)] := by
  simp [stepReport, h, hd]

theorem skipUndecoded_onlyCellsChange (c : Config) (s : State) : OnlyCellsChange [pcAddr] s (skipUndecoded c s) := by
  intro a ha
  rw [skipUndecoded_read, if_neg (List.ne_of_not_mem_cons ha)]

/-- Settles O20: the step is the skip, whose effect is AdvancePC alone, and only a reserved first byte fails. -/
theorem decodeFailureIsSkipped : Obligations.DecodeFailureIsSkipped := by
  unfold Obligations.DecodeFailureIsSkipped
  intro c s e hrun hd
  obtain ⟨b2, hpair⟩ := decodeWith_fetch_error hd
  obtain ⟨hconfig, hreserved⟩ := decodePair_error hpair
  rw [stepIn_undecoded hrun hd]
  exact ⟨advancePc_only_pc c _ s, skipUndecoded_onlyCellsChange c s, ⟨rfl, rfl, rfl⟩, stepReport_undecoded hrun hd,
    hconfig, hreserved, instrWidth_of_reservedByte hreserved⟩

end Machine

end Sys2Proof

/-! ### The adder (41_add_sub.md R110) -/

namespace Sys2Proof.Machine

/-- R110: the result is the wrap-around sum, which is the byte addition. -/
@[simp] theorem addFlags_result (a v : Byte) : (addFlags a v).result = a + v := rfl

theorem addFlags_carry_iff (a v : Byte) : (addFlags a v).carry = true ↔ 255 < a.toNat + v.toNat := by
  simp [addFlags]

/-- R110: the source's overflow test, equal signs of the operands and another sign of the result. -/
theorem addFlags_overflow_iff_msb (a v : Byte) :
    (addFlags a v).overflow = true ↔ a.msb = v.msb ∧ a.msb ≠ (a + v).msb := by
  simp [addFlags, BitVec.ofNat_add]

/-- R110: the sign test is the two's-complement overflow of the addition, by the library's law of the two. -/
theorem addFlags_overflow_eq_saddOverflow (a v : Byte) : (addFlags a v).overflow = a.saddOverflow v := by
  rw [Bool.eq_iff_iff, addFlags_overflow_iff_msb, BitVec.saddOverflow_eq]
  simp [ne_comm]

theorem addFlags_overflow_iff_toInt (a v : Byte) :
    (addFlags a v).overflow = true ↔ a.toInt + v.toInt < -128 ∨ 127 < a.toInt + v.toInt := by
  rw [addFlags_overflow_eq_saddOverflow]
  simp only [BitVec.saddOverflow, Bool.or_eq_true, decide_eq_true_eq]
  omega

/-- Shifting bit 7 down to bit 0 and masking it leaves the sign bit as a byte. -/
theorem ushiftRight_seven_and_one (x : Byte) : (x >>> 7) &&& 1#8 = BitVec.ofNat 8 x.msb.toNat := by
  rw [BitVec.and_one_eq_setWidth_ofBool_getLsbD, BitVec.getLsbD_ushiftRight, BitVec.msb_eq_getLsbD_last]
  cases x.getLsbD 7 <;> rfl

/-- R110: the sign bit of `(a ^ res) & (v ^ res)` is 1 exactly when both operands' signs differ from the result's. -/
theorem addFlags_overflow_eq_msb (a v : Byte) :
    (addFlags a v).overflow = ((a ^^^ (a + v)) &&& (v ^^^ (a + v))).msb := by
  rw [Bool.eq_iff_iff, addFlags_overflow_iff_msb, BitVec.msb_and, BitVec.msb_xor, BitVec.msb_xor]
  cases a.msb <;> cases v.msb <;> cases (a + v).msb <;> decide

/-- Settles O24: the result is the byte addition, and each reading of the overflow is one law of the sign test. -/
theorem adderResultCarryOverflow : Obligations.AdderResultCarryOverflow := by
  unfold Obligations.AdderResultCarryOverflow
  intro a v
  rw [addFlags_result, ushiftRight_seven_and_one, ← addFlags_overflow_eq_msb]
  exact ⟨BitVec.toNat_add a v, addFlags_carry_iff a v, addFlags_overflow_iff_toInt a v,
    addFlags_overflow_iff_msb a v, rfl⟩

end Sys2Proof.Machine

/-! ### The logic instructions (43_and_or_lneg.md R130 to R132) -/

namespace Sys2Proof.Machine

/-! A register written, then AdvancePC(k): the register holds the value written, and only it and the PC change. -/

theorem advancePc_setReg_reg (c : Config) (k : Byte) (r : Reg) (v : Byte) (s : State) :
    (advancePc c s.pc k (s.setReg r v)).reg r = v := by
  have h := advancePc_setReg_read c k r v s (regAddr r)
  rwa [if_neg (regAddr_ne_pcAddr r), if_pos rfl] at h

theorem advancePc_setReg_onlyCellsChange (c : Config) (k : Byte) (r : Reg) (v : Byte) (s : State) :
    OnlyCellsChange [regAddr r, pcAddr] s (advancePc c s.pc k (s.setReg r v)) := by
  intro a ha
  obtain ⟨hreg, hpc⟩ : a ≠ regAddr r ∧ a ≠ pcAddr := by simpa using ha
  rw [advancePc_setReg_read, if_neg hpc, if_neg hreg]

/-- What AND, OR and LNEG share (R130 to R132): the PC moves by their length, and every cell but A and the PC is kept,
the flag cells among them. -/
theorem setAccumulator_pc_frame (c : Config) (v : Byte) (s : State) :
    (setAccumulator c v s).pc = s.pc + 2#8 ∧ OnlyCellsChange [regAddr .a, pcAddr] s (setAccumulator c v s) ∧
      SameControl s (setAccumulator c v s) :=
  ⟨advancePc_setReg_pc c _ .a v s, advancePc_setReg_onlyCellsChange c _ .a v s, rfl, rfl, rfl⟩

@[simp] theorem andIn_reg_a (c : Config) (m : AddrMode) (b : Byte) (s : State) :
    (andIn c m b s).reg .a = s.reg .a &&& effectiveValue m b s := advancePc_setReg_reg c _ .a _ s

@[simp] theorem orIn_reg_a (c : Config) (m : AddrMode) (b : Byte) (s : State) :
    (orIn c m b s).reg .a = s.reg .a ||| effectiveValue m b s := advancePc_setReg_reg c _ .a _ s

@[simp] theorem lnegIn_reg_a (c : Config) (m : AddrMode) (b : Byte) (s : State) :
    (lnegIn c m b s).reg .a = negated (effectiveValue m b s) := advancePc_setReg_reg c _ .a _ s

/-- R132: the negation, with 0 its own. -/
theorem negated_toNat (v : Byte) : (negated v).toNat = (256 - v.toNat) % 256 := BitVec.toNat_ofNat _ _

/-- Settles O32: A holds the conjunction, respectively the disjunction, of two bytes, which is bit by bit. -/
theorem andOrCombineBitwiseIntoA : Obligations.AndOrCombineBitwiseIntoA := by
  unfold Obligations.AndOrCombineBitwiseIntoA
  intro m b s
  refine ⟨⟨andIn config m b s, rfl, ?and, setAccumulator_pc_frame config _ s⟩,
    ⟨orIn config m b s, rfl, ?or, setAccumulator_pc_frame config _ s⟩⟩
  case and => intro j; rw [andIn_reg_a, BitVec.getLsbD_and]
  case or => intro j; rw [orIn_reg_a, BitVec.getLsbD_or]

/-- Settles O33: A holds the negation of the effective value, whatever it held before. -/
theorem lnegLoadsTheNegation : Obligations.LnegLoadsTheNegation := by
  unfold Obligations.LnegLoadsTheNegation
  intro m b s
  refine ⟨lnegIn config m b s, rfl, ?negation, setAccumulator_pc_frame config _ s⟩
  case negation => rw [lnegIn_reg_a, negated_toNat]

end Sys2Proof.Machine

/-! ### The conditions of a jump (44_jump.md R141) -/

namespace Sys2Proof.Machine

@[simp] theorem jumpTaken_unconditional (k : Cond) (s : State) : jumpTaken .unconditional k s = true := rfl

@[simp] theorem jumpTaken_reg (r : Reg) (k : Cond) (s : State) : jumpTaken (.reg r) k s = condHolds k (s.reg r) := rfl

/-! Each condition as a fact about the value as a number; its sign is the top bit. -/

@[simp] theorem condHolds_nonZero_iff (v : Byte) : condHolds .nonZero v = true ↔ v.toNat ≠ 0 :=
  bne_iff_ne.trans BitVec.toNat_ne

@[simp] theorem condHolds_zero_iff (v : Byte) : condHolds .zero v = true ↔ v.toNat = 0 :=
  beq_iff_eq.trans BitVec.toNat_eq

@[simp] theorem condHolds_lessThanZero_iff (v : Byte) : condHolds .lessThanZero v = true ↔ v.toInt < 0 := by
  rw [condHolds, BitVec.msb_eq_toInt, decide_eq_true_iff]

@[simp] theorem condHolds_positive_iff (v : Byte) : condHolds .positive v = true ↔ 0 ≤ v.toInt := by
  rw [condHolds, BitVec.msb_eq_toInt, Bool.not_eq_true', decide_eq_false_iff_not, not_lt]

/-- PositiveNonZero is NonZero and Positive together. -/
theorem condHolds_positiveNonZero_eq (v : Byte) :
    condHolds .positiveNonZero v = (condHolds .nonZero v && condHolds .positive v) := rfl

@[simp] theorem condHolds_positiveNonZero_iff (v : Byte) : condHolds .positiveNonZero v = true ↔ 0 < v.toInt := by
  have nonzero : v.toNat ≠ 0 ↔ v.toInt ≠ 0 := BitVec.toNat_ne.symm.trans (BitVec.toInt_ne (y := 0#8)).symm
  rw [condHolds_positiveNonZero_eq, Bool.and_eq_true, condHolds_nonZero_iff, condHolds_positive_iff, nonzero]
  omega

/-- Settles O34: a jump that tests a register asks only for the truth of its condition on that register's value. -/
theorem branchConditions : Obligations.BranchConditions := by
  unfold Obligations.BranchConditions
  intro k r s
  simp only [jumpTaken_reg]
  exact ⟨jumpTaken_unconditional k s, condHolds_nonZero_iff _, condHolds_zero_iff _, condHolds_lessThanZero_iff _,
    condHolds_positive_iff _, condHolds_positiveNonZero_iff _⟩

end Sys2Proof.Machine

/-! ### NOOP (47_noop_halt.md R170) -/

namespace Sys2Proof.Machine

/-- AdvancePC(k) alone writes no cell but the program counter's. -/
theorem advancePc_only_onlyCellsChange (c : Config) (k : Byte) (s : State) :
    OnlyCellsChange [pcAddr] s (advancePc c s.pc k s) := by
  intro a ha
  rw [advancePc_only_read, if_neg (List.ne_of_not_mem_cons ha)]

/-- Settles O43: NOOP is AdvancePC(1) alone; at p = 255 the byte addition wraps the PC to 0. -/
theorem noopOnlyAdvances : Obligations.NoopOnlyAdvances := by
  unfold Obligations.NoopOnlyAdvances
  intro s
  exact ⟨noopIn config s, exec_effectIn .noop s, advancePc_only_pc config 1#8 s,
    advancePc_only_onlyCellsChange config 1#8 s, advancePc_run .., advancePc_ar .., advancePc_dm ..⟩

end Sys2Proof.Machine

/-! ### The guard of the address space (20_memory.md R43, 60_exceptions.md R182) -/

namespace Sys2Proof.Machine

theorem Memory.read_of_memorySize_le (m : Memory) {a : Nat} (h : memorySize ≤ a) : m.read a = 0#8 :=
  if_neg h.not_gt

theorem Memory.write_of_memorySize_le (m : Memory) {a : Nat} (v : Byte) (h : memorySize ≤ a) : m.write a v = m :=
  if_neg h.not_gt

theorem accessReport_of_memorySize_le {a : Nat} (h : memorySize ≤ a) : accessReport a = [.addressOutOfRange a] :=
  if_neg h.not_gt

theorem accessReport_of_lt {a : Nat} (h : a < memorySize) : accessReport a = [] :=
  if_pos h

/-- Settles O7: the guard of the read, of the write and of the report is one test, which every byte passes. -/
theorem addressOutOfRangeIsHarmless : Obligations.AddressOutOfRangeIsHarmless := by
  unfold Obligations.AddressOutOfRangeIsHarmless
  refine ⟨fun m a v houtside => ?outside, fun a => ?byte⟩
  case outside =>
    exact ⟨m.read_of_memorySize_le houtside, m.write_of_memorySize_le v houtside,
      accessReport_of_memorySize_le houtside⟩
  case byte => exact accessReport_of_lt a.isLt

end Sys2Proof.Machine

/-! ### The operations of the host interface (60_exceptions.md R194, R195, R199 to R203) -/

namespace Sys2Proof.Machine

@[simp] theorem consoleOp_start_state (s : State) : (consoleOp .start s).state = { s with run := .running } := rfl

@[simp] theorem consoleOp_stop_state (s : State) : (consoleOp .stop s).state = { s with run := .halted } := rfl

/-- Setting RUN to what it is changes nothing: `start()` and `stop()` are idempotent (R194, R195). -/
theorem State.withRun_self {s : State} {x : RunState} (h : s.run = x) : { s with run := x } = s := by
  subst h; rfl

/-- Settles O55: each operation sets RUN alone, and sets it to what it is when called again. -/
theorem startAndStopSetOnlyRun : Obligations.StartAndStopSetOnlyRun := by
  unfold Obligations.StartAndStopSetOnlyRun
  intro s
  exact ⟨consoleOp_start_state s, consoleOp_stop_state s, State.withRun_self, State.withRun_self⟩

/-! Each operation on AR in its two run states. -/

theorem consoleOp_setAddressRegister_halted {s : State} (h : s.run = .halted) :
    consoleOp .setAddressRegister s = { state := { s with ar := s.input }, reply := .done } :=
  onlyHalted_halted h _

theorem consoleOp_readMemory_halted {s : State} (h : s.run = .halted) :
    consoleOp .readMemoryAtAddressRegister s =
      { state := { s with ar := s.ar + 1#8 }, reply := .byte (s.read s.ar) } :=
  onlyHalted_halted h _

theorem consoleOp_storeInput_halted {s : State} (h : s.run = .halted) :
    consoleOp .storeInputToAddressRegister s =
      { state := { s.write s.ar s.input with ar := s.ar + 1#8 }, reply := .done } :=
  onlyHalted_halted h _

theorem consoleOp_readMemory_running {s : State} (h : s.run = .running) :
    consoleOp .readMemoryAtAddressRegister s = { state := s, reply := .illegalConsoleOperation } :=
  onlyHalted_running h _

theorem consoleOp_storeInput_running {s : State} (h : s.run = .running) :
    consoleOp .storeInputToAddressRegister s = { state := s, reply := .illegalConsoleOperation } :=
  onlyHalted_running h _

/-- A write changes no cell but the one written, whatever AR becomes along with it (R202). -/
theorem State.withAr_write_onlyCellsChange (s : State) (x a v : Byte) :
    OnlyCellsChange [a] s { s.write a v with ar := x } := by
  intro b hb
  rw [State.withAr_read, State.read_write, if_neg (List.ne_of_not_mem_cons hb)]

theorem State.withAr_write_read_self (s : State) (x a v : Byte) :
    ({ s.write a v with ar := x } : State).read a = v := by
  rw [State.withAr_read, State.read_write, if_pos rfl]

/-- R201, R202: the incremented AR, reduced modulo 256, is the byte addition. -/
theorem ofNat_succ_mod_eq_add_one (x : Byte) : BitVec.ofNat 8 ((x.toNat + 1) % 256) = x + 1#8 :=
  ofNat_add_mod_eq_add x 1#8

/-- Settles O57: while HALTED each operation is its effect, while RUNNING the refusal. -/
theorem addressRegisterOperations : Obligations.AddressRegisterOperations := by
  unfold Obligations.AddressRegisterOperations
  intro s
  refine ⟨rfl, fun hhalted => ⟨consoleOp_setAddressRegister_halted hhalted, ?read, ?store⟩,
    fun hrunning => ⟨consoleOp_readMemory_running hrunning, consoleOp_storeInput_running hrunning⟩⟩
  case read => rw [ofNat_succ_mod_eq_add_one, consoleOp_readMemory_halted hhalted]
  case store =>
    rw [consoleOp_storeInput_halted hhalted]
    exact ⟨rfl, BitVec.toNat_add s.ar 1#8, s.withAr_write_read_self _ s.ar s.input,
      s.withAr_write_onlyCellsChange _ s.ar s.input, hhalted, rfl⟩

/-! The fields of a snapshot (R203). -/

@[simp] theorem consoleOp_snapshot (s : State) :
    consoleOp .snapshot s = { state := s, reply := .snap s.snapshot } := rfl

@[simp] theorem State.snapshot_memory_length (s : State) : s.snapshot.memory.length = memorySize := by
  simp [State.snapshot]

@[simp] theorem State.snapshot_memory_getElem? (s : State) (a : Byte) :
    s.snapshot.memory[a.toNat]? = some (s.read a) := by
  have hinside : a.toNat < memorySize := a.isLt
  simp [State.snapshot, List.getElem?_range hinside]

@[simp] theorem State.snapshot_isRunning_iff (s : State) : s.snapshot.isRunning = true ↔ s.run = .running :=
  beq_iff_eq

/-- Settles O58: the snapshot lists the cell of every address below 256 and takes RUN, AR and DM as they are. -/
theorem snapshotCopiesTheState : Obligations.SnapshotCopiesTheState := by
  unfold Obligations.SnapshotCopiesTheState
  intro s
  exact ⟨s.snapshot, consoleOp_snapshot s, s.snapshot_memory_length, s.snapshot_memory_getElem?,
    s.snapshot_isRunning_iff, rfl, rfl⟩

end Sys2Proof.Machine

/-! ### The canonical memory (20_memory.md R41, note 21) -/

namespace Sys2Proof.Machine

theorem State.resetIn_inv (c : Config) : (State.resetIn c).Inv := rfl

/-- Settles O2: the memory of every reset state lists no cell. -/
theorem resetMemoryIsCanonical : Obligations.ResetMemoryIsCanonical := by
  unfold Obligations.ResetMemoryIsCanonical
  exact ⟨State.resetIn_inv config, State.resetIn_inv⟩

theorem Memory.lookup_cons_of_ne {k a : Nat} (v : Byte) (m : Memory) (h : a ≠ k) :
    Memory.lookup ((k, v) :: m) a = m.lookup a := by
  simp [Memory.lookup, h.symm]

/-- The first listed cell of a canonical memory reads as no memory without cells up to it does. -/
theorem Memory.exists_lookup_ne_of_head {lo k : Nat} {v : Byte} {m m' : Memory}
    (hm : Memory.wfFrom lo ((k, v) :: m) = true) (hm' : m'.wfFrom (k + 1) = true) :
    ∃ a < memorySize, Memory.lookup ((k, v) :: m) a ≠ m'.lookup a := by
  obtain ⟨-, hk, hv, -⟩ := (Memory.wfFrom_cons ..).mp hm
  refine ⟨k, hk, ?_⟩
  rwa [Memory.lookup_head, Memory.lookup_below hm' k.lt_succ_self]

/-- The head of a canonical list bounds every address in it. -/
theorem Memory.wfFrom_of_le_head {lo lo' k : Nat} {v : Byte} {m : Memory}
    (h : Memory.wfFrom lo ((k, v) :: m) = true) (hle : lo' ≤ k) : Memory.wfFrom lo' ((k, v) :: m) = true := by
  obtain ⟨-, hentry⟩ := (Memory.wfFrom_cons ..).mp h
  exact (Memory.wfFrom_cons ..).mpr ⟨hle, hentry⟩

/-- Two canonical lists of cells that look the same at every address list the same cells: the lower of two different
first addresses would read as 0 in the other list, and below its first address a tail reads as 0. -/
theorem Memory.eq_of_lookup_eq {m : Memory} : ∀ {m' : Memory} {lo lo' : Nat}, m.wfFrom lo = true →
    m'.wfFrom lo' = true → (∀ a < memorySize, m.lookup a = m'.lookup a) → m = m' := by
  induction m with
  | nil =>
    intro m' lo lo' _ hm' hlook
    cases m' with
    | nil => rfl
    | cons e' m' =>
      obtain ⟨a, ha, hne⟩ := Memory.exists_lookup_ne_of_head (m' := []) hm' rfl
      exact absurd (hlook a ha).symm hne
  | cons e m ih =>
    intro m' lo lo' hm hm' hlook
    cases m' with
    | nil =>
      obtain ⟨a, ha, hne⟩ := Memory.exists_lookup_ne_of_head (m' := []) hm rfl
      exact absurd (hlook a ha) hne
    | cons e' m' =>
      obtain ⟨k, v⟩ := e
      obtain ⟨k', v'⟩ := e'
      obtain hlt | rfl | hgt := lt_trichotomy k k'
      · obtain ⟨a, ha, hne⟩ := Memory.exists_lookup_ne_of_head hm (Memory.wfFrom_of_le_head hm' hlt)
        exact absurd (hlook a ha) hne
      · obtain ⟨-, hk, -, htail⟩ := (Memory.wfFrom_cons ..).mp hm
        obtain ⟨-, -, -, htail'⟩ := (Memory.wfFrom_cons ..).mp hm'
        have hv : v = v' := by simpa only [Memory.lookup_head] using hlook k hk
        have htails : ∀ a < memorySize, Memory.lookup m a = Memory.lookup m' a := by
          intro a ha
          obtain rfl | hak := eq_or_ne a k
          · rw [Memory.lookup_below htail a.lt_succ_self, Memory.lookup_below htail' a.lt_succ_self]
          · simpa only [Memory.lookup_cons_of_ne _ _ hak] using hlook a ha
        rw [hv, ih htail htail' htails]
      · obtain ⟨a, ha, hne⟩ := Memory.exists_lookup_ne_of_head hm' (Memory.wfFrom_of_le_head hm hgt)
        exact absurd (hlook a ha).symm hne

/-- Settles O5: at an address of the address space the read is the look-up. -/
theorem canonicalMemoriesEqualWhenReadsAgree : Obligations.CanonicalMemoriesEqualWhenReadsAgree := by
  unfold Obligations.CanonicalMemoriesEqualWhenReadsAgree
  intro m m' hm hm' hread
  refine Memory.eq_of_lookup_eq hm hm' fun a ha => ?_
  have hbyte : (BitVec.ofNat 8 a).toNat = a := Nat.mod_eq_of_lt ha
  simpa only [hbyte, Memory.read, if_pos ha] using hread (BitVec.ofNat 8 a)

/-- In the canonical form the 256 cells, RUN, AR and DM are the whole state. -/
theorem State.eq_of_read_eq {s t : State} (hs : s.Inv) (ht : t.Inv) (hread : ∀ a : Byte, t.read a = s.read a)
    (hcontrol : SameControl s t) : t = s := by
  obtain ⟨mem, run, ar, dm⟩ := s
  obtain ⟨mem', run', ar', dm'⟩ := t
  obtain ⟨rfl, rfl, rfl⟩ := hcontrol
  obtain rfl : mem' = mem := canonicalMemoriesEqualWhenReadsAgree mem' mem ht hs hread
  rfl

@[simp] theorem State.read_write_self (s : State) (a v : Byte) : (s.write a v).read a = v := by
  rw [State.read_write, if_pos rfl]

theorem State.read_write_of_ne (s : State) {a b : Byte} (v : Byte) (h : b ≠ a) : (s.write a v).read b = s.read b := by
  rw [State.read_write, if_neg h]

theorem State.write_onlyCellsChange (s : State) (a v : Byte) : OnlyCellsChange [a] s (s.write a v) :=
  fun _ hb => s.read_write_of_ne v (List.ne_of_not_mem_cons hb)

theorem State.write_read_self {s : State} (h : s.Inv) (a : Byte) : s.write a (s.read a) = s := by
  refine State.eq_of_read_eq h (State.write_inv _ _ h) (fun b => ?_) ⟨rfl, rfl, rfl⟩
  rw [State.read_write]
  split
  · rw [‹b = a›]
  · rfl

theorem State.write_comm {s : State} (h : s.Inv) {a b : Byte} (hab : a ≠ b) (v w : Byte) :
    (s.write a v).write b w = (s.write b w).write a v := by
  refine State.eq_of_read_eq (State.write_inv _ _ (State.write_inv _ _ h)) (State.write_inv _ _ (State.write_inv _ _ h))
    (fun x => ?_) ⟨rfl, rfl, rfl⟩
  simp only [State.read_write]
  split
  · rw [if_neg (‹x = b› ▸ hab.symm)]
  · rfl

theorem State.write_write_self {s : State} (h : s.Inv) (a v w : Byte) : (s.write a v).write a w = s.write a w := by
  refine State.eq_of_read_eq (State.write_inv _ _ h) (State.write_inv _ _ (State.write_inv _ _ h)) (fun b => ?_)
    ⟨rfl, rfl, rfl⟩
  simp only [State.read_write]
  split <;> rfl

/-- Settles O6: the read after a write gives the first part, and with the canonical form equal reads are equal data. -/
theorem memoryWriteStoresOneByte : Obligations.MemoryWriteStoresOneByte := by
  unfold Obligations.MemoryWriteStoresOneByte
  exact ⟨fun s a v => ⟨s.read_write_self a v, s.write_onlyCellsChange a v, rfl, rfl, rfl⟩,
    fun s a h => State.write_read_self h a, fun s a b v w h hab => State.write_comm h hab v w,
    fun s a v w h => State.write_write_self h a v w⟩

/-- Settles O8: each register is its cell by definition, so the read after the write is the memory's. -/
theorem registersAreMemoryCells : Obligations.RegistersAreMemoryCells := by
  unfold Obligations.RegistersAreMemoryCells
  intro s v
  have written (a : Byte) : (s.write a v).read a = v := s.read_write_self a v
  exact ⟨⟨rfl, rfl, rfl, rfl, rfl, rfl, rfl, rfl, rfl⟩,
    ⟨written _, written _, written _, written _, written _, written _, written _, written _, written _⟩,
    rfl, rfl, rfl, rfl⟩

/-! Every instruction, the skip of a decode failure and every console operation keep the canonical form. -/

theorem jpdIn_inv (c : Config) (j : JumpTest) (k : Cond) (m : AddrMode) (b : Byte) {s : State} (h : s.Inv) :
    (jpdIn c j k m b s).Inv := by
  unfold jpdIn
  split
  · exact State.setPc_inv _ h
  · exact advancePc_inv h

theorem jmdIn_inv (c : Config) (j : JumpTest) (k : Cond) (m : AddrMode) (b : Byte) {s : State} (h : s.Inv) :
    (jmdIn c j k m b s).Inv := by
  unfold jmdIn
  split
  · exact State.setPc_inv _ (State.write_inv _ _ h)
  · exact advancePc_inv h

theorem effectIn_inv (c : Config) (i : Instr) {s : State} (h : s.Inv) : (effectIn c i s).Inv := by
  have written (a v : Byte) : (advancePc c s.pc 2#8 (s.write a v)).Inv := advancePc_inv (State.write_inv a v h)
  have loaded (k : Byte) (r : Reg) (v : Byte) : (advancePc c s.pc k (s.setReg r v)).Inv :=
    advancePc_inv (State.setReg_inv r v h)
  cases i with
  | halt => exact advancePc_inv (State.halt_inv h)
  | noop => exact advancePc_inv h
  | sftr r n => exact loaded ..
  | rotr r n => exact loaded ..
  | sftl r n => exact loaded ..
  | rotl r n => exact loaded ..
  | set0 k n => exact written ..
  | set1 k n => exact written ..
  | skp0 k n => exact advancePc_inv h
  | skp1 k n => exact advancePc_inv h
  | jpd j k m b => exact jpdIn_inv c j k m b h
  | jmd j k m b => exact jmdIn_inv c j k m b h
  | or m b => exact loaded ..
  | and m b => exact loaded ..
  | lneg m b => exact loaded ..
  | add r m b => exact addToReg_inv h
  | sub r m b => exact addToReg_inv h
  | load r m b => exact loaded ..
  | store r m b => exact written ..

/-- What a trigger can do (R90, R93, R94): nothing, the effect of an instruction, or the skip of a decode failure. -/
theorem stepIn_cases (c : Config) (s : State) :
    (s.run = .halted ∧ stepIn c s = s) ∨
    (∃ i rest, decodeWith c (fetch s) = .ok (i, rest) ∧ s.run = .running ∧ stepIn c s = effectIn c i s) ∨
    (∃ e, decodeWith c (fetch s) = .error e ∧ s.run = .running ∧ stepIn c s = skipUndecoded c s) := by
  cases hrun : s.run with
  | halted => exact .inl ⟨rfl, stepIn_halted c hrun⟩
  | running =>
    cases hd : decodeWith c (fetch s) with
    | ok p => exact .inr (.inl ⟨p.1, p.2, rfl, rfl, stepIn_decoded hrun hd⟩)
    | error e => exact .inr (.inr ⟨e, rfl, rfl, stepIn_undecoded hrun hd⟩)

theorem stepIn_inv (c : Config) {s : State} (h : s.Inv) : (stepIn c s).Inv := by
  obtain ⟨-, hstep⟩ | ⟨i, rest, -, -, hstep⟩ | ⟨e, -, -, hstep⟩ := stepIn_cases c s
  · rwa [hstep]
  · rw [hstep]; exact effectIn_inv c i h
  · rw [hstep]; exact advancePc_inv h

/-- Settles O3: of the three things a trigger can do each keeps the canonical form. -/
theorem stepKeepsCanonicalMemory : Obligations.StepKeepsCanonicalMemory := by
  unfold Obligations.StepKeepsCanonicalMemory
  refine ⟨fun s t h hstep => ?_, fun c s h => stepIn_inv c h⟩
  obtain rfl : stepIn config s = t := by simpa [step_stepIn] using hstep
  exact stepIn_inv config h

/-- An operation refused while RUNNING keeps the canonical form when its effect while HALTED does. -/
theorem onlyHalted_inv {s : State} {a : Answer} (h : s.Inv) (ha : a.state.Inv) : (onlyHalted s a).state.Inv := by
  cases hrun : s.run with
  | running => rwa [onlyHalted_running hrun]
  | halted => rwa [onlyHalted_halted hrun]

theorem toggleInputOp_inv (n : Nat) {s : State} (h : s.Inv) : (toggleInputOp n s).state.Inv := by
  unfold toggleInputOp
  split
  · exact State.write_inv _ _ h
  · exact h

theorem consoleOp_inv (op : ConsoleOp) {s : State} (h : s.Inv) : (consoleOp op s).state.Inv := by
  cases op with
  | start => exact h
  | stop => exact h
  | writeInputRegister v => exact State.write_inv _ _ h
  | toggleInputBit n => exact toggleInputOp_inv n h
  | clearInputRegister => exact State.write_inv _ _ h
  | setAddressRegister => exact onlyHalted_inv h h
  | getAddressRegister => exact h
  | readMemoryAtAddressRegister => exact onlyHalted_inv h h
  | storeInputToAddressRegister => exact onlyHalted_inv h (State.write_inv _ _ h)
  | snapshot => exact h
  | loadCell a v => exact onlyHalted_inv h (State.write_inv _ _ h)

theorem afterEvent_inv (e : HostEvent) {s : State} (h : s.Inv) : (afterEvent e s).Inv := by
  cases e with
  | trigger => rw [afterEvent_trigger]; exact stepIn_inv config h
  | console op => exact consoleOp_inv op h

/-- Settles O4, by induction on the events. -/
theorem eventSequencesKeepCanonicalMemory : Obligations.EventSequencesKeepCanonicalMemory := by
  unfold Obligations.EventSequencesKeepCanonicalMemory
  intro es
  induction es with
  | nil => exact fun s h => h
  | cons e es ih => exact fun s h => ih _ (afterEvent_inv e h)

end Sys2Proof.Machine

/-! ### The encoding (30_encoding.md sections 2 to 7) -/

namespace Sys2Proof

/-! The fields of a packed first byte are those it was packed from, and every byte is packed from its fields (R61). -/

@[simp] theorem selectorField_packFirst (hi : BitVec 2) (mid lo : BitVec 3) :
    selectorField (packFirst hi mid lo) = lo :=
  Laws.EncodeLength.sel_packFirst hi mid lo

@[simp] theorem registerField_packFirst (hi : BitVec 2) (mid lo : BitVec 3) :
    registerField (packFirst hi mid lo) = hi := by
  revert hi mid lo; decide

@[simp] theorem bitField_packFirst (hi : BitVec 2) (mid lo : BitVec 3) : bitField (packFirst hi mid lo) = mid := by
  revert hi mid lo; decide

@[simp] theorem opcodeField_packFirst (hi : BitVec 2) (mid lo : BitVec 3) :
    opcodeField (packFirst hi mid lo) = mid.setWidth 2 := by
  revert hi mid lo; decide

@[simp] theorem highField_packFirst (hi : BitVec 2) (mid lo : BitVec 3) :
    highField (packFirst hi mid lo) = hi ++ mid := by
  revert hi mid lo; decide

theorem packFirst_bits (hi : BitVec 2) (mid lo : BitVec 3) :
    (packFirst hi mid lo)[7] = hi[1] ∧ (packFirst hi mid lo)[6] = hi[0] ∧ (packFirst hi mid lo)[5] = mid[2] ∧
      (packFirst hi mid lo)[4] = mid[1] ∧ (packFirst hi mid lo)[3] = mid[0] := by
  revert hi mid lo; decide

set_option maxRecDepth 10000 in
theorem packFirst_fields : ∀ b1 : Byte, packFirst (registerField b1) (bitField b1) (selectorField b1) = b1 := by
  decide

/-! The code tables read back what they write (R68 to R70). -/

@[simp] theorem AddrMode.ofCode_code (m : AddrMode) : AddrMode.ofCode m.code = some m := by cases m <;> decide
@[simp] theorem Cond.ofCode_code (k : Cond) : Cond.ofCode k.code = some k := by cases k <;> decide
@[simp] theorem Reg.ofCode_code (r : Reg) : Reg.ofCode r.code = some r := by cases r <;> decide
@[simp] theorem JumpTest.ofCode_code (t : JumpTest) : JumpTest.ofCode t.code = t := by
  cases t with
  | reg r => simp [JumpTest.ofCode, JumpTest.code]
  | unconditional => decide

theorem AddrMode.code_of_ofCode {lo : BitVec 3} {m : AddrMode} (h : AddrMode.ofCode lo = some m) : m.code = lo := by
  unfold AddrMode.ofCode at h
  split_ifs at h <;> cases h <;> symm <;> assumption

theorem Cond.code_of_ofCode {lo : BitVec 3} {k : Cond} (h : Cond.ofCode lo = some k) : k.code = lo := by
  unfold Cond.ofCode at h
  split_ifs at h <;> cases h <;> symm <;> assumption

theorem Reg.code_of_ofCode {hi : BitVec 2} {r : Reg} (h : Reg.ofCode hi = some r) : r.code = hi := by
  unfold Reg.ofCode at h
  split_ifs at h <;> cases h <;> symm <;> assumption

/-! The codes a field can hold: a selector is a one-byte format's, SET and SKP's, or both a mode's and a condition's. -/

theorem selector_cases (lo : BitVec 3) :
    lo = 0#3 ∨ lo = 1#3 ∨ lo = 2#3 ∨ (∃ m : AddrMode, lo = m.code) ∧ ∃ k : Cond, lo = k.code := by
  by_cases h : lo = 0#3 ∨ lo = 1#3 ∨ lo = 2#3
  · obtain h | h | h := h <;> simp [h]
  · push Not at h
    obtain ⟨hz, hsh, hbt⟩ := h
    refine .inr (.inr (.inr ⟨?mode, ?cond⟩))
    case mode =>
      obtain ⟨m, hm⟩ := Option.ne_none_iff_exists'.mp (addrMode_ofCode_ne_none hz hsh hbt)
      exact ⟨m, (AddrMode.code_of_ofCode hm).symm⟩
    case cond =>
      obtain ⟨k, hk⟩ := Option.ne_none_iff_exists'.mp (cond_ofCode_ne_none hz hsh hbt)
      exact ⟨k, (Cond.code_of_ofCode hk).symm⟩

/-- bits[7:6] are a register's code or 11, which is no register's. -/
theorem exists_reg_code {hi : BitVec 2} (h : hi ≠ 3#2) : ∃ r : Reg, hi = r.code := by
  obtain ⟨r, hr⟩ := Option.ne_none_iff_exists'.mp (fun hnone => h (reg_ofCode_eq_none hnone))
  exact ⟨r, (Reg.code_of_ofCode hr).symm⟩

theorem exists_jumpTest_code (hi : BitVec 2) : ∃ t : JumpTest, hi = t.code := by
  obtain rfl | h := eq_or_ne hi 3#2
  · exact ⟨.unconditional, rfl⟩
  · obtain ⟨r, rfl⟩ := exists_reg_code h
    exact ⟨.reg r, rfl⟩

/-! Which format a packed byte decodes as (R62 to R67). -/

theorem decodePair_shift (c : Config) (hi : BitVec 2) (mid : BitVec 3) (b2 : Byte) :
    decodePair c (packFirst hi mid 1#3) b2 = .ok (decodeShift (packFirst hi mid 1#3)) := by
  simp [decodePair]

theorem decodePair_bit (c : Config) (hi : BitVec 2) (mid : BitVec 3) (b2 : Byte) :
    decodePair c (packFirst hi mid 2#3) b2 = .ok (decodeBit (packFirst hi mid 2#3) b2) := by
  simp [decodePair]

theorem AddrMode.code_ne (m : AddrMode) : m.code ≠ 0#3 ∧ m.code ≠ 1#3 ∧ m.code ≠ 2#3 := by cases m <;> decide

theorem Cond.code_ne (k : Cond) : k.code ≠ 0#3 ∧ k.code ≠ 1#3 ∧ k.code ≠ 2#3 := by cases k <;> decide

theorem decodePair_jump (c : Config) (hi : BitVec 2) {mid : BitVec 3} (k : Cond) (b2 : Byte) (h : mid[2] = true) :
    decodePair c (packFirst hi mid k.code) b2 = .ok (
      if mid[1] then .jmd (JumpTest.ofCode hi) k (if mid[0] then .indirect else .memory) b2
      else .jpd (JumpTest.ofCode hi) k (if mid[0] then .indirect else .memory) b2) := by
  obtain ⟨hz, hsh, hbt⟩ := k.code_ne
  obtain ⟨-, -, hbit5, hbit4, hbit3⟩ := packFirst_bits hi mid k.code
  simp [decodePair, decodeJump, hz, hsh, hbt, hbit5, hbit4, hbit3, h]

theorem decodePair_operation (c : Config) (hi : BitVec 2) {mid : BitVec 3} (m : AddrMode) (b2 : Byte)
    (h : mid[2] = false) :
    decodePair c (packFirst hi mid m.code) b2 = decodeOperation c (packFirst hi mid m.code) b2 := by
  obtain ⟨hz, hsh, hbt⟩ := m.code_ne
  obtain ⟨-, -, hbit5, -, -⟩ := packFirst_bits hi mid m.code
  simp [decodePair, hz, hsh, hbt, hbit5, h]

/-- The register of format AR is 0, 1 or 2, so a logic instruction is none of its. -/
theorem Reg.code_append_ne (r : Reg) (mid : BitVec 3) :
    r.code ++ mid ≠ 24#5 ∧ r.code ++ mid ≠ 26#5 ∧ r.code ++ mid ≠ 27#5 := by
  cases r <;> revert mid <;> decide

theorem decodeOperation_reg (c : Config) (r : Reg) (mid : BitVec 3) (m : AddrMode) (b2 : Byte) :
    decodeOperation c (packFirst r.code mid m.code) b2 = .ok (
      if mid.setWidth 2 = 0#2 then .add r m b2
      else if mid.setWidth 2 = 1#2 then .sub r m b2
      else if mid.setWidth 2 = 2#2 then .load r m b2
      else .store r m b2) := by
  obtain ⟨hor, hand, hlneg⟩ := r.code_append_ne mid
  simp only [decodeOperation, selectorField_packFirst, AddrMode.ofCode_code, highField_packFirst,
    registerField_packFirst, Reg.ofCode_code, opcodeField_packFirst, hor, hand, hlneg, if_false]
  split_ifs <;> rfl

/-! Format SH writes the register in bit 5 and the place count, less one, in bits[4:3] (R66, R72). -/

theorem Reg.ofShiftBit_shiftBit {r : Reg} (h : r.shiftable = true) : Reg.ofShiftBit r.shiftBit = r := by
  cases r with
  | a => rfl
  | b => rfl
  | x => exact absurd h (by decide)

theorem placesOk_bounds {n : Nat} (h : placesOk n = true) : 1 ≤ n ∧ n ≤ 4 := of_decide_eq_true h

theorem ofNat_pred_places {n : Nat} (h : placesOk n = true) : (BitVec.ofNat 2 (n - 1)).toNat + 1 = n := by
  obtain ⟨hlo, hhi⟩ := placesOk_bounds h
  rw [BitVec.toNat_ofNat]
  omega

theorem shiftFields (g : BitVec 1) (pp : BitVec 2) : (g ++ pp)[2] = g[0] ∧ (g ++ pp).setWidth 2 = pp := by
  revert g pp; decide

theorem decodePair_packShift (c : Config) (dt : BitVec 2) {r : Reg} {n : Nat} (b2 : Byte)
    (h : (r.shiftable && placesOk n) = true) :
    decodePair c (packShift dt r n) b2 = .ok (
      if dt[1] then (if dt[0] then .rotl r n else .sftl r n)
      else (if dt[0] then .rotr r n else .sftr r n)) := by
  obtain ⟨hr, hn⟩ := Bool.and_eq_true_iff.mp h
  obtain ⟨hbit7, hbit6, hbit5, -, -⟩ :=
    packFirst_bits dt (BitVec.ofBool r.shiftBit ++ BitVec.ofNat 2 (n - 1)) 1#3
  obtain ⟨hg, hpp⟩ := shiftFields (BitVec.ofBool r.shiftBit) (BitVec.ofNat 2 (n - 1))
  have hreg : Reg.ofShiftBit (BitVec.ofBool r.shiftBit)[0] = r := by simpa using Reg.ofShiftBit_shiftBit hr
  rw [packShift, decodePair_shift]
  simp only [decodeShift, BitVec.getLsbD_eq_getElem, Nat.reduceLT, opcodeField_packFirst, hbit7, hbit6, hbit5, hg,
    hpp, hreg, ofNat_pred_places hn]
  cases dt[1] <;> cases dt[0] <;> rfl

theorem decodePair_packBit (c : Config) (hi : BitVec 2) {k : Nat} (b2 : Byte) (h : bitOk k = true) :
    decodePair c (packFirst hi (BitVec.ofNat 3 k) 2#3) b2 = .ok (
      if hi[1] then (if hi[0] then .skp1 k b2 else .skp0 k b2)
      else (if hi[0] then .set1 k b2 else .set0 k b2)) := by
  obtain ⟨hbit7, hbit6, -, -, -⟩ := packFirst_bits hi (BitVec.ofNat 3 k) 2#3
  have hlt : k < 8 := of_decide_eq_true h
  have hbit : (BitVec.ofNat 3 k).toNat = k := Nat.mod_eq_of_lt hlt
  rw [decodePair_bit]
  simp only [decodeBit, BitVec.getLsbD_eq_getElem, Nat.reduceLT, bitField_packFirst, hbit, hbit7, hbit6]
  cases hi[1] <;> cases hi[0] <;> rfl

theorem decodePair_packJump (c : Config) (mark : Bool) (j : JumpTest) (k : Cond) {m : AddrMode} (b2 : Byte)
    (h : m.jumpable = true) :
    decodePair c (packJump mark j k m) b2 = .ok (if mark then .jmd j k m b2 else .jpd j k m b2) := by
  have hbit5 : (0b1#1 ++ BitVec.ofBool mark ++ BitVec.ofBool (m == .indirect))[2] = true := by
    cases mark <;> cases m <;> rfl
  rw [packJump, decodePair_jump c _ k b2 hbit5, JumpTest.ofCode_code]
  cases m with
  | memory => cases mark <;> rfl
  | indirect => cases mark <;> rfl
  | _ => exact absurd h (by decide)

/-- A logic instruction is selected by bits[7:3] before any register code is read (R75). -/
theorem decodePair_packLogic (c : Config) (mid : BitVec 3) (m : AddrMode) (b2 : Byte)
    (h : mid = 0#3 ∨ mid = 2#3 ∨ mid = 3#3) :
    decodePair c (packFirst 3#2 mid m.code) b2 = .ok (
      if mid = 0#3 then .or m b2 else if mid = 2#3 then .and m b2 else .lneg m b2) := by
  have hbit5 : mid[2] = false := by obtain rfl | rfl | rfl := h <;> rfl
  rw [decodePair_operation c 3#2 m b2 hbit5]
  obtain rfl | rfl | rfl := h <;> simp [decodeOperation]

theorem decodePair_packReg (c : Config) (r : Reg) {mid : BitVec 3} (m : AddrMode) (b2 : Byte) (h : mid[2] = false) :
    decodePair c (packFirst r.code mid m.code) b2 = .ok (
      if mid.setWidth 2 = 0#2 then .add r m b2
      else if mid.setWidth 2 = 1#2 then .sub r m b2
      else if mid.setWidth 2 = 2#2 then .load r m b2
      else .store r m b2) := by
  rw [decodePair_operation c _ m b2 h, decodeOperation_reg]

/-- The decoder takes a first byte that the encoder packed, with the operand byte, back to the instruction; a one-byte
instruction takes nothing from the second byte. -/
theorem decodePair_encodeFirst (c : Config) {i : Instr} (h : i.wellFormed = true) (b2 : Byte) :
    decodePair c (encodeFirst i) ((operandOf i).getD b2) = .ok i := by
  cases i with
  | halt => rfl
  | noop => rfl
  | sftr r n => exact decodePair_packShift c 0b00#2 b2 h
  | rotr r n => exact decodePair_packShift c 0b01#2 b2 h
  | sftl r n => exact decodePair_packShift c 0b10#2 b2 h
  | rotl r n => exact decodePair_packShift c 0b11#2 b2 h
  | set0 k b => exact decodePair_packBit c 0b00#2 b h
  | set1 k b => exact decodePair_packBit c 0b01#2 b h
  | skp0 k b => exact decodePair_packBit c 0b10#2 b h
  | skp1 k b => exact decodePair_packBit c 0b11#2 b h
  | jpd j k m b => exact decodePair_packJump c false j k b h
  | jmd j k m b => exact decodePair_packJump c true j k b h
  | or m b => exact decodePair_packLogic c 0b000#3 m b (.inl rfl)
  | and m b => exact decodePair_packLogic c 0b010#3 m b (.inr (.inl rfl))
  | lneg m b => exact decodePair_packLogic c 0b011#3 m b (.inr (.inr rfl))
  | add r m b => exact decodePair_packReg c r m b rfl
  | sub r m b => exact decodePair_packReg c r m b rfl
  | load r m b => exact decodePair_packReg c r m b rfl
  | store r m b => exact decodePair_packReg c r m b rfl

/-- The encoding is as long as its first byte says (R60). -/
theorem encode_length : (i : Instr) → (encode i).length = instrWidth (encodeFirst i)
  | .halt => Laws.EncodeLength.halt
  | .noop => Laws.EncodeLength.noop
  | .sftr r n => Laws.EncodeLength.sftr r n
  | .rotr r n => Laws.EncodeLength.rotr r n
  | .sftl r n => Laws.EncodeLength.sftl r n
  | .rotl r n => Laws.EncodeLength.rotl r n
  | .set0 k b => Laws.EncodeLength.set0 k b
  | .set1 k b => Laws.EncodeLength.set1 k b
  | .skp0 k b => Laws.EncodeLength.skp0 k b
  | .skp1 k b => Laws.EncodeLength.skp1 k b
  | .jpd j k m b => Laws.EncodeLength.jpd j k m b
  | .jmd j k m b => Laws.EncodeLength.jmd j k m b
  | .or m b => Laws.EncodeLength.or m b
  | .and m b => Laws.EncodeLength.and m b
  | .lneg m b => Laws.EncodeLength.lneg m b
  | .add r m b => Laws.EncodeLength.add r m b
  | .sub r m b => Laws.EncodeLength.sub r m b
  | .load r m b => Laws.EncodeLength.load r m b
  | .store r m b => Laws.EncodeLength.store r m b

/-- Settles O9: the first byte announces whether the encoding has an operand byte, and the pair decodes back. -/
theorem decodeEncodeRoundTrip : Obligations.DecodeEncodeRoundTrip := by
  unfold Obligations.DecodeEncodeRoundTrip
  intro c i rest h
  have hpair := decodePair_encodeFirst c h 0#8
  have hlength := encode_length i
  cases hoperand : operandOf i with
  | none =>
    have hencode : encode i = [encodeFirst i] := by simp [encode, hoperand]
    have hwidth : instrWidth (encodeFirst i) = 1 := by simpa [hencode] using hlength.symm
    simp only [hoperand, Option.getD_none] at hpair
    simp [hencode, decodeWith, hwidth, hpair]
  | some b =>
    have hencode : encode i = [encodeFirst i, b] := by simp [encode, hoperand]
    have hwidth : instrWidth (encodeFirst i) = 2 := by simpa [hencode] using hlength.symm
    simp only [hoperand, Option.getD_some] at hpair
    simp [hencode, decodeWith, hwidth, hpair]

/-! ### The decoder's inverse (30_encoding.md R76 to R78)

Apart from the ignored bits of format Z and the reserved SUB bytes, every first byte is packed by the encoder, so what
it decodes to follows from the round trip. -/

/-- The operand byte of an instruction with the first byte `b1`, when `b2` stands after it (R60, R71). -/
def operandFor (b1 b2 : Byte) : Option Byte := if instrWidth b1 = 1 then none else some b2

/-- The instruction is one that the encoder gives the bytes `b1` and, where there is an operand byte, `b2`. -/
def EncodedAs (i : Instr) (b1 b2 : Byte) : Prop :=
  i.wellFormed = true ∧ encodeFirst i = b1 ∧ operandOf i = operandFor b1 b2

theorem EncodedAs.encode_eq {i : Instr} {b1 b2 : Byte} (h : EncodedAs i b1 b2) :
    encode i = if instrWidth b1 = 1 then [b1] else [b1, b2] := by
  obtain ⟨-, hfirst, hoperand⟩ := h
  rw [encode, hfirst, hoperand, operandFor]
  split <;> rfl

theorem EncodedAs.decodePair_eq {i : Instr} {b1 b2 : Byte} (c : Config) (h : EncodedAs i b1 b2) :
    decodePair c b1 b2 = .ok i := by
  obtain ⟨hwf, rfl, hoperand⟩ := h
  have hpair := decodePair_encodeFirst c hwf b2
  have hgetD : (operandOf i).getD b2 = b2 := by
    rw [hoperand, operandFor]
    split <;> rfl
  rwa [hgetD] at hpair

theorem operandFor_shift (hi : BitVec 2) (mid : BitVec 3) (b2 : Byte) :
    operandFor (packFirst hi mid 1#3) b2 = none := by
  simp [operandFor, instrWidth]

theorem operandFor_of_selector {lo : BitVec 3} (hi : BitVec 2) (mid : BitVec 3) (b2 : Byte) (hz : lo ≠ 0#3)
    (hsh : lo ≠ 1#3) : operandFor (packFirst hi mid lo) b2 = some b2 := by
  simp [operandFor, instrWidth, hz, hsh]

theorem exists_packShift (hi : BitVec 2) (mid : BitVec 3) :
    ∃ r n, (r.shiftable && placesOk n) = true ∧ packShift hi r n = packFirst hi mid 1#3 := by
  refine ⟨Reg.ofShiftBit mid[2], (mid.setWidth 2).toNat + 1, ?_⟩
  revert hi mid; decide

theorem direction_type_cases (hi : BitVec 2) : hi = 0#2 ∨ hi = 1#2 ∨ hi = 2#2 ∨ hi = 3#2 := by
  revert hi; decide

theorem exists_encodedAs_shift (hi : BitVec 2) (mid : BitVec 3) (b2 : Byte) :
    ∃ i, EncodedAs i (packFirst hi mid 1#3) b2 := by
  obtain ⟨r, n, hwf, hpack⟩ := exists_packShift hi mid
  have hnone := (operandFor_shift hi mid b2).symm
  obtain rfl | rfl | rfl | rfl := direction_type_cases hi
  · exact ⟨.sftr r n, hwf, hpack, hnone⟩
  · exact ⟨.rotr r n, hwf, hpack, hnone⟩
  · exact ⟨.sftl r n, hwf, hpack, hnone⟩
  · exact ⟨.rotl r n, hwf, hpack, hnone⟩

theorem exists_encodedAs_bit (hi : BitVec 2) (mid : BitVec 3) (b2 : Byte) :
    ∃ i, EncodedAs i (packFirst hi mid 2#3) b2 := by
  have hwf : bitOk mid.toNat = true := decide_eq_true mid.isLt
  have hpack (hi : BitVec 2) : packFirst hi (BitVec.ofNat 3 mid.toNat) 2#3 = packFirst hi mid 2#3 := by
    rw [BitVec.ofNat_toNat, BitVec.setWidth_eq]
  have hsome := (operandFor_of_selector (lo := 2#3) hi mid b2 (by decide) (by decide)).symm
  obtain rfl | rfl | rfl | rfl := direction_type_cases hi
  · exact ⟨.set0 mid.toNat b2, hwf, hpack _, hsome⟩
  · exact ⟨.set1 mid.toNat b2, hwf, hpack _, hsome⟩
  · exact ⟨.skp0 mid.toNat b2, hwf, hpack _, hsome⟩
  · exact ⟨.skp1 mid.toNat b2, hwf, hpack _, hsome⟩

/-- With bit 5 one, bits 4 and 3 are the mark and the indirect flag (R64). -/
theorem exists_jumpFlags {mid : BitVec 3} (h : mid[2] = true) :
    ∃ mark ind : Bool, mid = 0b1#1 ++ BitVec.ofBool mark ++ BitVec.ofBool ind := by
  refine ⟨mid[1], mid[0], ?_⟩
  revert mid; decide

theorem exists_encodedAs_jump (hi : BitVec 2) {mid : BitVec 3} (k : Cond) (b2 : Byte) (h : mid[2] = true) :
    ∃ i, EncodedAs i (packFirst hi mid k.code) b2 := by
  obtain ⟨hz, hsh, -⟩ := k.code_ne
  have hsome := (operandFor_of_selector hi mid b2 hz hsh).symm
  obtain ⟨j, rfl⟩ := exists_jumpTest_code hi
  obtain ⟨mark, ind, rfl⟩ := exists_jumpFlags h
  cases mark <;> cases ind
  · exact ⟨.jpd j k .memory b2, rfl, rfl, hsome⟩
  · exact ⟨.jpd j k .indirect b2, rfl, rfl, hsome⟩
  · exact ⟨.jmd j k .memory b2, rfl, rfl, hsome⟩
  · exact ⟨.jmd j k .indirect b2, rfl, rfl, hsome⟩

theorem opcode_cases {mid : BitVec 3} (h : mid[2] = false) : mid = 0#3 ∨ mid = 1#3 ∨ mid = 2#3 ∨ mid = 3#3 := by
  revert mid; decide

/-- With bit 5 zero, bits[5:3] are the opcode, which register code 11 has for all but SUB (R62, R63, R76). -/
theorem exists_encodedAs_operation (hi : BitVec 2) {mid : BitVec 3} (m : AddrMode) (b2 : Byte) (h : mid[2] = false)
    (hreserved : ¬(hi = 3#2 ∧ mid = 1#3)) : ∃ i, EncodedAs i (packFirst hi mid m.code) b2 := by
  obtain ⟨hz, hsh, -⟩ := m.code_ne
  have hsome := (operandFor_of_selector hi mid b2 hz hsh).symm
  obtain rfl | hreg := eq_or_ne hi 3#2
  · obtain rfl | rfl | rfl | rfl := opcode_cases h
    · exact ⟨.or m b2, rfl, rfl, hsome⟩
    · exact absurd ⟨rfl, rfl⟩ hreserved
    · exact ⟨.and m b2, rfl, rfl, hsome⟩
    · exact ⟨.lneg m b2, rfl, rfl, hsome⟩
  · obtain ⟨r, rfl⟩ := exists_reg_code hreg
    obtain rfl | rfl | rfl | rfl := opcode_cases h
    · exact ⟨.add r m b2, rfl, rfl, hsome⟩
    · exact ⟨.sub r m b2, rfl, rfl, hsome⟩
    · exact ⟨.load r m b2, rfl, rfl, hsome⟩
    · exact ⟨.store r m b2, rfl, rfl, hsome⟩

theorem reservedByte_packFirst (hi : BitVec 2) (mid lo : BitVec 3) :
    Machine.reservedByte (packFirst hi mid lo) = decide (hi = 3#2 ∧ mid = 1#3 ∧ 3 ≤ lo.toNat) := by
  revert hi mid lo; decide

theorem AddrMode.three_le_code (m : AddrMode) : 3 ≤ m.code.toNat := by cases m <;> decide

/-- Every pair but those of format Z and the reserved ones is the encoding of an instruction. -/
theorem exists_encodedAs {b1 : Byte} (b2 : Byte) (hz : selectorField b1 ≠ 0#3)
    (hreserved : Machine.reservedByte b1 = false) : ∃ i, EncodedAs i b1 b2 := by
  rw [← packFirst_fields b1] at hreserved ⊢
  generalize registerField b1 = hi, bitField b1 = mid, selectorField b1 = lo at *
  obtain rfl | rfl | rfl | ⟨⟨m, hm⟩, k, hk⟩ := selector_cases lo
  · exact absurd rfl hz
  · exact exists_encodedAs_shift hi mid b2
  · exact exists_encodedAs_bit hi mid b2
  · cases hbit5 : mid[2] with
    | true => exact hk ▸ exists_encodedAs_jump hi k b2 hbit5
    | false =>
      subst hm
      refine exists_encodedAs_operation hi m b2 hbit5 fun hsub => ?_
      simp [reservedByte_packFirst, hsub, m.three_le_code] at hreserved

/-- What a reserved pair decodes to (R76): its first byte is register code 11 with SUB. -/
theorem decodePair_reserved {b1 : Byte} (h : Machine.reservedByte b1 = true) :
    ∃ m : AddrMode, b1 &&& 0x0F#8 = encodeFirst (.sub .a m 0#8) ∧ ∀ (c : Config) (b2 : Byte), decodePair c b1 b2 =
      if c.reg3Sub = .aliasA then .ok (.sub .a m b2) else .error (.reservedRegister3 b1) := by
  rw [← packFirst_fields b1] at h ⊢
  generalize registerField b1 = hi, bitField b1 = mid, selectorField b1 = lo at *
  obtain ⟨rfl, rfl, hlo⟩ : hi = 3#2 ∧ mid = 1#3 ∧ 3 ≤ lo.toNat := by simpa [reservedByte_packFirst] using h
  obtain rfl | rfl | rfl | ⟨⟨m, rfl⟩, -⟩ := selector_cases lo
  · exact absurd hlo (by decide)
  · exact absurd hlo (by decide)
  · exact absurd hlo (by decide)
  · refine ⟨m, by cases m <;> decide, fun c b2 => ?_⟩
    rw [decodePair_operation c 3#2 m b2 rfl]
    cases hc : c.reg3Sub <;> simp [decodeOperation, hc, Reg.ofCode]

theorem decodePair_formatZ (c : Config) {b1 : Byte} (b2 : Byte) (h : selectorField b1 = 0#3) :
    decodePair c b1 b2 = .ok (decodeZ b1) := by
  simp [decodePair, h]

/-- What a pair can decode to, under any configuration: format Z, a reserved byte as SUB A, or the instruction whose
encoding the pair is. -/
theorem decodePair_cases {c : Config} {b1 b2 : Byte} {i : Instr} (h : decodePair c b1 b2 = .ok i) :
    (selectorField b1 = 0#3 ∧ i = decodeZ b1) ∨
    (Machine.reservedByte b1 = true ∧ ∃ m, i = .sub .a m b2) ∨
    (selectorField b1 ≠ 0#3 ∧ Machine.reservedByte b1 = false ∧ EncodedAs i b1 b2) := by
  by_cases hz : selectorField b1 = 0#3
  · have hi := (decodePair_formatZ c b2 hz).symm.trans h
    exact .inl ⟨hz, (Except.ok.inj hi).symm⟩
  cases hreserved : Machine.reservedByte b1 with
  | true =>
    obtain ⟨m, -, hpair⟩ := decodePair_reserved hreserved
    rw [hpair] at h
    split_ifs at h
    exact .inr (.inl ⟨rfl, m, (Except.ok.inj h).symm⟩)
  | false =>
    obtain ⟨j, hj⟩ := exists_encodedAs b2 hz hreserved
    obtain rfl : j = i := Except.ok.inj ((hj.decodePair_eq c).symm.trans h)
    exact .inr (.inr ⟨hz, rfl, hj⟩)

theorem decodeZ_eq (b1 : Byte) : decodeZ b1 = .halt ∨ decodeZ b1 = .noop := by
  unfold decodeZ
  split
  · exact .inr rfl
  · exact .inl rfl

theorem decodePair_wellFormed {c : Config} {b1 b2 : Byte} {i : Instr} (h : decodePair c b1 b2 = .ok i) :
    i.wellFormed = true := by
  obtain ⟨-, rfl⟩ | ⟨-, m, rfl⟩ | ⟨-, -, hwf, -⟩ := decodePair_cases h
  · obtain hhalt | hnoop := decodeZ_eq b1
    · rw [hhalt]; rfl
    · rw [hnoop]; rfl
  · rfl
  · exact hwf

/-- Settles O10: outside format Z and the reserved bytes the pair is an encoding, and the round trip is one to one. -/
theorem encodeGivesBackTheBytes : Obligations.EncodeGivesBackTheBytes := by
  unfold Obligations.EncodeGivesBackTheBytes
  intro c b1 b2 i h
  refine ⟨decodePair_wellFormed h, fun hz hreserved => ?_⟩
  obtain ⟨hformat, -⟩ | ⟨hbyte, -⟩ | ⟨-, -, hencoded⟩ := decodePair_cases h
  · exact absurd hformat hz
  · exact absurd hreserved (by simp [hbyte])
  · exact hencoded.encode_eq

/-- Settles O11: only reserved bytes fail (`decodePair_error`), and they decode as the configuration says. -/
theorem decodeFailsOnlyOnReservedBytes : Obligations.DecodeFailsOnlyOnReservedBytes := by
  unfold Obligations.DecodeFailsOnlyOnReservedBytes
  refine ⟨fun c b1 b2 => ⟨fun ⟨e, he⟩ => Machine.decodePair_error he, fun ⟨hc, hreserved⟩ => ?fails⟩,
    fun c b1 b2 hc hreserved => ?aliased, rfl⟩
  case fails =>
    obtain ⟨m, -, hpair⟩ := decodePair_reserved hreserved
    exact ⟨.reservedRegister3 b1, by rw [hpair, hc, if_neg (by decide)]⟩
  case aliased =>
    obtain ⟨m, hmask, hpair⟩ := decodePair_reserved hreserved
    rw [hpair, if_pos hc, hmask]
    exact (decodePair_encodeFirst c (i := .sub .a m b2) rfl b2).symm

/-! The same instruction with another operand byte. -/

/-- The instruction with the operand byte `b`, where it has one. -/
def Instr.withOperand (b : Byte) : Instr → Instr
  | .set0 k _ => .set0 k b
  | .set1 k _ => .set1 k b
  | .skp0 k _ => .skp0 k b
  | .skp1 k _ => .skp1 k b
  | .jpd j k m _ => .jpd j k m b
  | .jmd j k m _ => .jmd j k m b
  | .or m _ => .or m b
  | .and m _ => .and m b
  | .lneg m _ => .lneg m b
  | .add r m _ => .add r m b
  | .sub r m _ => .sub r m b
  | .load r m _ => .load r m b
  | .store r m _ => .store r m b
  | i => i

@[simp] theorem Instr.withOperand_wellFormed (b : Byte) (i : Instr) : (i.withOperand b).wellFormed = i.wellFormed := by
  cases i <;> rfl

@[simp] theorem encodeFirst_withOperand (b : Byte) (i : Instr) : encodeFirst (i.withOperand b) = encodeFirst i := by
  cases i <;> rfl

@[simp] theorem mnemonicOf_withOperand (b : Byte) (i : Instr) : mnemonicOf (i.withOperand b) = mnemonicOf i := by
  cases i <;> rfl

@[simp] theorem operandOf_withOperand (b : Byte) (i : Instr) :
    operandOf (i.withOperand b) = (operandOf i).map fun _ => b := by
  cases i <;> rfl

theorem EncodedAs.withOperand {i : Instr} {b1 b2 : Byte} (h : EncodedAs i b1 b2) (b : Byte) :
    EncodedAs (i.withOperand b) b1 b := by
  obtain ⟨hwf, hfirst, hoperand⟩ := h
  refine ⟨by simpa using hwf, by simpa using hfirst, ?_⟩
  rw [operandOf_withOperand, hoperand, operandFor, operandFor]
  split <;> rfl

/-- The second byte only fills the operand field (R71). -/
theorem decodePair_withOperand {c : Config} {b1 b2 : Byte} {i : Instr} (h : decodePair c b1 b2 = .ok i) (b : Byte) :
    decodePair c b1 b = .ok (i.withOperand b) := by
  obtain ⟨hz, rfl⟩ | ⟨hreserved, m, rfl⟩ | ⟨-, -, hencoded⟩ := decodePair_cases h
  · rw [decodePair_formatZ c b hz]
    obtain hhalt | hnoop := decodeZ_eq b1
    · rw [hhalt]; rfl
    · rw [hnoop]; rfl
  · obtain ⟨m', -, hpair⟩ := decodePair_reserved hreserved
    rw [hpair] at h ⊢
    split_ifs at h ⊢
    cases h
    rfl
  · exact (hencoded.withOperand b).decodePair_eq c

theorem operandOf_of_decodePair {c : Config} {b1 b2 : Byte} {i : Instr} (h : decodePair c b1 b2 = .ok i) :
    operandOf i = operandFor b1 b2 := by
  obtain ⟨hz, rfl⟩ | ⟨hreserved, m, rfl⟩ | ⟨-, -, -, -, hoperand⟩ := decodePair_cases h
  · have hnone : operandFor b1 b2 = none := by simp [operandFor, instrWidth, hz]
    obtain hhalt | hnoop := decodeZ_eq b1
    · rw [hhalt, hnone]; rfl
    · rw [hnoop, hnone]; rfl
  · rw [operandFor, Machine.instrWidth_of_reservedByte hreserved]; rfl
  · exact hoperand

/-- Settles O12: with another second byte the pair decodes to the same instruction with that operand. -/
theorem operandByteIsCopiedUnchanged : Obligations.OperandByteIsCopiedUnchanged := by
  unfold Obligations.OperandByteIsCopiedUnchanged
  intro c b1 b2 i h
  exact ⟨operandOf_of_decodePair h, fun b => ⟨i.withOperand b, decodePair_withOperand h b,
    encodeFirst_withOperand b i, mnemonicOf_withOperand b i⟩⟩

/-! The opcode table (R79, section 7). -/

/-- The mnemonic of the instruction a pair decodes to. -/
def mnemonicOfPair (b1 b2 : Byte) : Option String :=
  match decodePair config b1 b2 with
  | .ok i => some (mnemonicOf i)
  | .error _ => none

theorem exists_of_mnemonicOfPair {b1 b2 : Byte} {name : String} (h : mnemonicOfPair b1 b2 = some name) :
    ∃ i, decodePair config b1 b2 = .ok i ∧ mnemonicOf i = name := by
  cases hpair : decodePair config b1 b2 with
  | ok i => exact ⟨i, rfl, by simpa [mnemonicOfPair, hpair] using h⟩
  | error e => simp [mnemonicOfPair, hpair] at h

set_option maxRecDepth 10000 in
/-- Of the 256 first bytes each is one row's, whose length and mnemonic are those of what it decodes to. -/
theorem opcodeTable_row : ∀ b1 : Byte, (opcodeTable.filter (fun r => r.holds b1)).map
    (fun r => (r.length, some r.mnemonic)) = [(instrWidth b1, mnemonicOfPair b1 0#8)] := by decide

/-- Settles O13: the table is checked at one second byte, on which neither the row nor the mnemonic depends. -/
theorem everyFirstByteHasOneOpcodeRow : Obligations.EveryFirstByteHasOneOpcodeRow := by
  unfold Obligations.EveryFirstByteHasOneOpcodeRow
  intro b1 b2
  obtain ⟨row, hrow, hvalues⟩ := List.map_eq_singleton_iff.mp (opcodeTable_row b1)
  obtain ⟨hlength, hmnemonic⟩ := Prod.mk.inj hvalues
  obtain ⟨i, hpair, hname⟩ := exists_of_mnemonicOfPair hmnemonic.symm
  exact ⟨row, hrow, hlength, i.withOperand b2, decodePair_withOperand hpair b2,
    (mnemonicOf_withOperand b2 i).trans hname⟩

/-- Settles O14: the decoder evaluated on the twenty words of the table. -/
theorem specWordsDecode : Obligations.SpecWordsDecode := by
  unfold Obligations.SpecWordsDecode
  and_intros <;> decide

end Sys2Proof

/-! ### The step and runs of it (40_step_and_addressing.md R90 to R94) -/

namespace Sys2Proof

/-- A one-byte instruction takes nothing from the second byte (R77). -/
theorem decodePair_eq_of_width_one {b1 : Byte} (c : Config) (b2 : Byte) (h : instrWidth b1 = 1) :
    decodePair c b1 b2 = decodePair c b1 0#8 := by
  have hreserved : Machine.reservedByte b1 = false := by
    by_contra hne
    simp [Machine.instrWidth_of_reservedByte (Bool.of_not_eq_false hne)] at h
  by_cases hz : selectorField b1 = 0#3
  · rw [decodePair_formatZ c b2 hz, decodePair_formatZ c 0#8 hz]
  · obtain ⟨i, hwf, hfirst, hoperand⟩ := exists_encodedAs 0#8 hz hreserved
    have hother : EncodedAs i b1 b2 := 
      ⟨hwf, hfirst, by rw [hoperand, operandFor, operandFor, if_pos h, if_pos h]⟩
    rw [hother.decodePair_eq c, EncodedAs.decodePair_eq c ⟨hwf, hfirst, hoperand⟩]

/-! The decoder of a list of bytes gives what the pair gives, with the bytes left over. -/

theorem ok_of_map_eq_ok {x : Except DecodeError Instr} {left : Instr → List Byte} {i : Instr} {rest : List Byte}
    (h : (x.map fun j => (j, left j)) = .ok (i, rest)) : x = .ok i := by
  cases x with
  | ok j => exact congrArg Except.ok (Prod.mk.inj (Except.ok.inj h)).1
  | error e => nomatch h

theorem error_of_map_eq_error {x : Except DecodeError Instr} {left : Instr → List Byte} {e : DecodeError}
    (h : (x.map fun j => (j, left j)) = .error e) : x = .error e := by
  cases x with
  | ok j => nomatch h
  | error e' => exact congrArg Except.error (Except.error.inj h)

/-- What the decoder gives on two bytes is what the pair gives, and a one-byte instruction leaves the second byte. -/
theorem decodeWith_two (c : Config) (b1 b2 : Byte) :
    decodeWith c [b1, b2] = (decodePair c b1 b2).map fun i => (i, if instrWidth b1 = 1 then [b2] else []) := by
  by_cases hw : instrWidth b1 = 1
  · rw [decodePair_eq_of_width_one c b2 hw]
    cases hp : decodePair c b1 0#8 <;> simp [decodeWith, hw, hp, Except.map]
  · cases hp : decodePair c b1 b2 <;> simp [decodeWith, hw, hp, Except.map]

namespace Machine

/-- A fetch gives the decoder the pair at p, of which it leaves nothing (R92). -/
theorem decodeWith_fetch (c : Config) (s : State) :
    decodeWith c (fetch s) = (decodePair c (s.read s.pc) (s.read (s.pc + 1#8))).map fun i => (i, []) := by
  by_cases hw : instrWidth (s.read s.pc) = 1
  · rw [decodePair_eq_of_width_one c _ hw]
    cases hp : decodePair c (s.read s.pc) 0#8 <;> simp [fetch, decodeWith, hw, hp, Except.map]
  · cases hp : decodePair c (s.read s.pc) (s.read (s.pc + 1#8)) <;> simp [fetch, decodeWith, hw, hp, Except.map]

/-- While RUNNING the instruction that the pair at p decodes to is the one that runs (R93). -/
theorem stepIn_of_decodePair {c : Config} {s : State} {i : Instr} (hrun : s.run = .running)
    (h : decodePair c (s.read s.pc) (s.read (s.pc + 1#8)) = .ok i) : stepIn c s = effectIn c i s :=
  stepIn_decoded hrun (rest := []) (by rw [decodeWith_fetch, h]; rfl)

theorem step_of_decodePair {s : State} {i : Instr} (hrun : s.run = .running)
    (h : decodePair config (s.read s.pc) (s.read (s.pc + 1#8)) = .ok i) : step s = exec i s := by
  rw [step_stepIn, stepIn_of_decodePair hrun h, exec_effectIn]

/-- Settles O16: whatever the decoder makes of the two bytes at p it makes of the fetch. -/
theorem stepRunsDecodedInstruction : Obligations.StepRunsDecodedInstruction := by
  unfold Obligations.StepRunsDecodedInstruction
  intro s
  refine ⟨fun hrun => ?halted, fun hrun i rest h => ?decoded, fun hrun c e h => ?undecoded⟩
  case halted => rw [step_stepIn, stepIn_halted config hrun]
  case decoded =>
    rw [decode, decodeWith_two] at h
    exact step_of_decodePair hrun (ok_of_map_eq_ok h)
  case undecoded =>
    rw [decodeWith_two] at h
    exact stepIn_undecoded hrun (e := e) (by rw [decodeWith_fetch, error_of_map_eq_error h]; rfl)

/-- Settles O17: the bytes at p and p + 1 are those the encoder gives, and decode back to the instruction. -/
theorem encodedInstructionAtPcRuns : Obligations.EncodedInstructionAtPcRuns := by
  unfold Obligations.EncodedInstructionAtPcRuns
  intro i s hwf hrun hbytes
  have hfirst : s.read s.pc = encodeFirst i := by simpa [encode] using hbytes 0 (by simp [encode])
  have hsecond : (operandOf i).getD (s.read (s.pc + 1#8)) = s.read (s.pc + 1#8) := by
    cases hoperand : operandOf i with
    | none => rfl
    | some b =>
      have hbyte := hbytes 1 (by simp [encode, hoperand])
      simpa [encode, hoperand] using hbyte.symm
  have hpair := decodePair_encodeFirst config hwf (s.read (s.pc + 1#8))
  rw [hsecond, ← hfirst] at hpair
  exact step_of_decodePair hrun hpair

/-! Runs of triggers. -/

/-- A state that a trigger leaves as it is stays under any number of them. -/
theorem core_run_of_stepIn_eq {s : State} (h : stepIn config s = s) (k : Nat) :
    Host.Core.run Sys2Proof.core k s = .next s := by
  induction k with
  | zero => rfl
  | succ k ih => rw [core_run_succ, h, ih]

/-- Settles O18: a trigger leaves a HALTED machine as it is. -/
theorem haltedMachineKeepsItsState : Obligations.HaltedMachineKeepsItsState := by
  unfold Obligations.HaltedMachineKeepsItsState
  exact fun s hrun => ⟨core_run_of_stepIn_eq (stepIn_halted config hrun), fun c => stepIn_halted c hrun⟩

/-- Settles O19, by induction on the number of triggers: each ends in a state. -/
theorem machineAlwaysRemainsSteppable : Obligations.MachineAlwaysRemainsSteppable := by
  unfold Obligations.MachineAlwaysRemainsSteppable
  intro s k
  induction k generalizing s with
  | zero => exact ⟨s, rfl⟩
  | succ k ih => rw [core_run_succ]; exact ih (stepIn config s)

/-! AR and DM beside a run (10_state.md R20, R21). -/

/-- The state with other values in the host's cells AR and DM. -/
def State.withHostCells (s : State) (x : Byte) (d : DisplayMode) : State := { s with ar := x, dm := d }

@[simp] theorem effectIn_dm (c : Config) (i : Instr) (s : State) : (effectIn c i s).dm = s.dm := by
  obtain rfl | h := eq_or_ne i .halt
  · rfl
  · obtain ⟨-, -, hdm⟩ := effectIn_control c s h
    exact hdm

/-- RUN after an instruction: HALTED after HALT, otherwise as before (R19). -/
theorem effectIn_run (c : Config) (i : Instr) (s : State) :
    (effectIn c i s).run = if i = .halt then .halted else s.run := by
  split
  · subst i; rfl
  · obtain ⟨hrun, -, -⟩ := effectIn_control c s ‹_›
    exact hrun

theorem effectIn_withHostCells (c : Config) (i : Instr) (s : State) (x : Byte) (d : DisplayMode) :
    effectIn c i (s.withHostCells x d) = (effectIn c i s).withHostCells x d := by
  have hmem : (effectIn c i (s.withHostCells x d)).mem = (effectIn c i s).mem := effectIn_congr_mem c i rfl
  have hrun : (effectIn c i (s.withHostCells x d)).run = (effectIn c i s).run := by
    rw [effectIn_run, effectIn_run]; rfl
  have har := effectIn_ar c i (s.withHostCells x d)
  have hdm := effectIn_dm c i (s.withHostCells x d)
  cases ht : effectIn c i (s.withHostCells x d)
  rw [ht] at hmem hrun har hdm
  subst hmem hrun har hdm
  rfl

/-- A trigger does not change AR and DM, and with other values in them it does the same. -/
theorem stepIn_hostCells (c : Config) (s : State) :
    (stepIn c s).ar = s.ar ∧ (stepIn c s).dm = s.dm ∧
    ∀ x d, stepIn c (s.withHostCells x d) = (stepIn c s).withHostCells x d := by
  obtain ⟨hrun, hstep⟩ | ⟨i, rest, hd, hrun, hstep⟩ | ⟨e, hd, hrun, hstep⟩ := stepIn_cases c s
  · rw [hstep]
    exact ⟨rfl, rfl, fun x d => stepIn_halted (s := s.withHostCells x d) c hrun⟩
  · rw [hstep]
    refine ⟨effectIn_ar c i s, effectIn_dm c i s, fun x d => ?_⟩
    rw [stepIn_decoded (s := s.withHostCells x d) hrun hd, effectIn_withHostCells]
  · rw [hstep]
    exact ⟨rfl, rfl, fun x d => stepIn_undecoded (s := s.withHostCells x d) hrun hd⟩

/-- Settles O49, by induction on the number of triggers, for every state and every AR and DM. -/
theorem hostCellsDoNotAffectRuns : Obligations.HostCellsDoNotAffectRuns := by
  unfold Obligations.HostCellsDoNotAffectRuns
  intro k
  induction k with
  | zero => exact fun s x d => ⟨s, rfl, rfl, rfl, rfl⟩
  | succ k ih =>
    intro s x d
    obtain ⟨har, hdm, hother⟩ := stepIn_hostCells config s
    obtain ⟨t, hrun, htar, htdm, hrun'⟩ := ih (stepIn config s) x d
    refine ⟨t, by rw [core_run_succ, hrun], htar.trans har, htdm.trans hdm, ?_⟩
    rw [core_run_succ]
    exact (congrArg _ (hother x d)).trans hrun'

/-! The effective address (R99 to R101). -/

/-- Settles O22: the rows of the resolver, the wrapped sums written as byte additions. -/
theorem effectiveAddressOfEachMode : Obligations.EffectiveAddressOfEachMode := by
  unfold Obligations.EffectiveAddressOfEachMode
  refine ⟨fun c b s => ?_, rfl⟩
  have hslot : BitVec.ofNat 8 ((s.pc.toNat + 1) % 256) = s.pc + 1#8 := ofNat_succ_mod_eq_add_one s.pc
  rw [hslot, ofNat_add_mod_eq_add b (s.reg .x), ofNat_add_mod_eq_add (s.read b) (s.reg .x)]
  exact ⟨fun hc => by simp [effectiveAddress, hc], fun hc => by simp [effectiveAddress, hc], rfl, rfl, rfl, rfl⟩

/-- Settles O23: EV reads at EA by definition in four modes, and in IMMEDIATE the slot holds the operand byte. -/
theorem effectiveValueIsReadAtEffectiveAddress : Obligations.EffectiveValueIsReadAtEffectiveAddress := by
  unfold Obligations.EffectiveValueIsReadAtEffectiveAddress
  intro m b s hslot
  cases m with
  | immediate => exact hslot.symm
  | memory => rfl
  | indirect => rfl
  | indexed => rfl
  | indirectIndexed => rfl

end Machine

end Sys2Proof

/-! ### What the shared operations leave: program counter, frame, RUN, AR and DM -/

namespace Sys2Proof.Machine

/-- LOAD and the shifts (R120, R160): the PC moves by the length, every cell but the register and the PC is kept. -/
theorem advancePc_setReg_pc_frame (c : Config) (k : Byte) (r : Reg) (v : Byte) (s : State) :
    (advancePc c s.pc k (s.setReg r v)).pc = s.pc + k ∧
      OnlyCellsChange [regAddr r, pcAddr] s (advancePc c s.pc k (s.setReg r v)) ∧
      SameControl s (advancePc c s.pc k (s.setReg r v)) :=
  ⟨advancePc_setReg_pc c k r v s, advancePc_setReg_onlyCellsChange c k r v s, rfl, rfl, rfl⟩

/-- The skips and a jump not taken: every cell but the PC is kept. -/
theorem advancePc_only_frame (c : Config) (k : Byte) (s : State) :
    OnlyCellsChange [pcAddr] s (advancePc c s.pc k s) ∧ SameControl s (advancePc c s.pc k s) :=
  ⟨advancePc_only_onlyCellsChange c k s, rfl, rfl, rfl⟩

/-- STORE, SET0 and SET1: every cell but the one written and the PC is kept. -/
theorem advancePc_write_onlyCellsChange (c : Config) (k n v : Byte) (s : State) :
    OnlyCellsChange [n, pcAddr] s (advancePc c s.pc k (s.write n v)) := by
  intro a ha
  obtain ⟨hn, hpc⟩ : a ≠ n ∧ a ≠ pcAddr := by simpa using ha
  rw [advancePc_write_read, if_neg hpc, if_neg hn]

theorem advancePc_write_frame (c : Config) (k n v : Byte) (s : State) :
    OnlyCellsChange [n, pcAddr] s (advancePc c s.pc k (s.write n v)) ∧
      SameControl s (advancePc c s.pc k (s.write n v)) :=
  ⟨advancePc_write_onlyCellsChange c k n v s, rfl, rfl, rfl⟩

/-- Away from the PC cell, the byte written stays and the PC moves on from p. -/
theorem advancePc_write_of_ne (c : Config) (k : Byte) {n : Byte} (v : Byte) (s : State) (h : n ≠ pcAddr) :
    (advancePc c s.pc k (s.write n v)).read n = v ∧ (advancePc c s.pc k (s.write n v)).pc = s.pc + k := by
  refine ⟨?_, ?_⟩
  · rw [advancePc_write_read, if_neg h, if_pos rfl]
  · rw [advancePc_write_pc, if_neg fun hpc => h hpc.1]

/-- On the PC cell, the base of the PC's advance decides (R95). -/
theorem advancePc_write_pcAddr_pc (c : Config) (k v : Byte) (s : State) :
    (advancePc c s.pc k (s.write pcAddr v)).pc = (if c.pcAdvanceBase = .currentCell then v else s.pc) + k := by
  rw [advancePc_write_pc]
  simp only [true_and]

theorem State.setPc_onlyCellsChange (s : State) (t : Byte) : OnlyCellsChange [pcAddr] s (s.setPc t) :=
  s.write_onlyCellsChange pcAddr t

/-! ### ADD and SUB (41_add_sub.md R111 to R113) -/

theorem addToReg_reg (c : Config) (r : Reg) (v : Byte) (s : State) : (addToReg c r v s).reg r = s.reg r + v := by
  have h := addToReg_read c r v s (regAddr r)
  rwa [if_neg (regAddr_ne_pcAddr r), if_neg (regAddr_ne_flagAddr r r), if_pos rfl] at h

theorem addToReg_flagCell (c : Config) (r : Reg) (v : Byte) (s : State) :
    (addToReg c r v s).flagCell r = flagCellValue c (s.flagCell r) (addFlags (s.reg r) v) := by
  have h := addToReg_read c r v s (flagAddr r)
  rwa [if_neg (flagAddr_ne_pcAddr r), if_pos rfl] at h

theorem addToReg_onlyCellsChange (c : Config) (r : Reg) (v : Byte) (s : State) :
    OnlyCellsChange [regAddr r, flagAddr r, pcAddr] s (addToReg c r v s) := by
  intro a ha
  obtain ⟨hreg, hflag, hpc⟩ : a ≠ regAddr r ∧ a ≠ flagAddr r ∧ a ≠ pcAddr := by simpa using ha
  rw [addToReg_read, if_neg hpc, if_neg hflag, if_neg hreg]

theorem addToReg_pc_frame (c : Config) (r : Reg) (v : Byte) (s : State) :
    (addToReg c r v s).pc = s.pc + 2#8 ∧ OnlyCellsChange [regAddr r, flagAddr r, pcAddr] s (addToReg c r v s) ∧
      SameControl s (addToReg c r v s) :=
  ⟨addToReg_pc c r v s, addToReg_onlyCellsChange c r v s, addToReg_control c r v s⟩

/-- SUB is the addition of the negation (R112). -/
theorem subIn_eq_addToReg (c : Config) (r : Reg) (m : AddrMode) (b : Byte) (s : State) :
    subIn c r m b s = addToReg c r (0#8 - effectiveValue m b s) s := by
  rw [subIn, negated_eq_sub]

theorem exec_add (r : Reg) (m : AddrMode) (b : Byte) (s : State) :
    exec (.add r m b) s = .next (addToReg config r (effectiveValue m b s) s) := rfl

theorem exec_sub (r : Reg) (m : AddrMode) (b : Byte) (s : State) :
    exec (.sub r m b) s = .next (addToReg config r (0#8 - effectiveValue m b s) s) := by
  rw [← subIn_eq_addToReg]; rfl

/-- Under the machine's OC_WRITE the whole flag cell is the two flags (R113). -/
theorem addToReg_flagCell_toNat (r : Reg) (v : Byte) (s : State) :
    ((addToReg config r v s).flagCell r).toNat =
      (if 255 < (s.reg r).toNat + v.toNat then 2 else 0) +
      (if (s.reg r).toInt + v.toInt < -128 ∨ 127 < (s.reg r).toInt + v.toInt then 1 else 0) := by
  have hwhole : (addToReg config r v s).flagCell r = flagByte (addFlags (s.reg r) v) := addToReg_flagCell config r v s
  simp only [hwhole, flagByte_toNat, ← addFlags_carry_iff, ← addFlags_overflow_iff_toInt]
  cases (addFlags (s.reg r) v).carry <;> cases (addFlags (s.reg r) v).overflow <;> rfl

/-- Settles O25: the flag cell is that of the shared addition, read bit by bit. -/
theorem flagCellUnderEachReading : Obligations.FlagCellUnderEachReading := by
  unfold Obligations.FlagCellUnderEachReading
  refine ⟨fun c r m b s => ?_, rfl⟩
  have hadd : (effectIn c (.add r m b) s).flagCell r = _ := addToReg_flagCell c r (effectiveValue m b s) s
  have hsub : (effectIn c (.sub r m b) s).flagCell r = _ :=
    (congrArg (State.flagCell · r) (subIn_eq_addToReg c r m b s)).trans (addToReg_flagCell c r _ s)
  rw [hadd, hsub]
  exact ⟨flagCellValue_bit0 .., flagCellValue_bit1 .., flagCellValue_bit0 .., flagCellValue_bit1 ..,
    fun j hj => ⟨flagCellValue_high c _ _ j hj, flagCellValue_high c _ _ j hj⟩⟩

/-- Settles O26: ADD is the shared addition of the effective value. -/
theorem addWritesSumAndFlags : Obligations.AddWritesSumAndFlags := by
  unfold Obligations.AddWritesSumAndFlags
  intro r m b s
  refine ⟨_, exec_add r m b s, ?sum, addToReg_flagCell_toNat r _ s, addToReg_pc_frame config r _ s⟩
  case sum => rw [addToReg_reg, BitVec.toNat_add]

/-- Settles O27: SUB is the shared addition of the negated effective value, and so is ADD of the negated literal. -/
theorem subAddsTheNegation : Obligations.SubAddsTheNegation := by
  unfold Obligations.SubAddsTheNegation
  refine ⟨fun r m b s => ⟨_, exec_sub r m b s, ?difference, ?flags, addToReg_pc_frame config r _ s⟩,
    fun r v s => exec_sub r .immediate v s⟩
  case difference => rw [addToReg_reg, BitVec.zero_sub, BitVec.sub_eq_add_neg]
  case flags => rw [addToReg_flagCell_toNat, ← negated_toNat, negated_eq_sub]

/-- R112: the carry of the addition of the negation is "no borrow", but for a zero operand. -/
theorem carry_of_negated_iff (x v : Byte) :
    (addFlags x (0#8 - v)).carry = true ↔ v ≠ 0#8 ∧ v.toNat ≤ x.toNat := by
  have hx := x.isLt
  have hv := v.isLt
  rw [addFlags_carry_iff, ← negated_eq_sub, negated_toNat, BitVec.toNat_ne, BitVec.toNat_ofNat]
  omega

/-- R112: the overflow of the addition of the negation is that of the subtraction, but for 0x80, its own negation. -/
theorem overflow_of_negated_iff (x : Byte) {v : Byte} (h : v ≠ 0x80#8) :
    (addFlags x (0#8 - v)).overflow = true ↔ x.toInt - v.toInt < -128 ∨ 127 < x.toInt - v.toInt := by
  have hneg : (0#8 - v).toInt = -v.toInt := by
    rw [BitVec.zero_sub, BitVec.toInt_neg_of_ne_intMin h]
  rw [addFlags_overflow_iff_toInt, hneg, ← sub_eq_add_neg]

/-- Settles O28: bits 1 and 0 of the flag cell are the carry and the overflow of the addition of the negation. -/
theorem subFlagsInClosedForm : Obligations.SubFlagsInClosedForm := by
  unfold Obligations.SubFlagsInClosedForm
  intro r m b s t hexec
  obtain rfl : addToReg config r (0#8 - effectiveValue m b s) s = t := by simpa [exec_sub] using hexec
  rw [addToReg_flagCell, flagCellValue_bit1, flagCellValue_bit0]
  exact ⟨carry_of_negated_iff _ _, overflow_of_negated_iff _⟩

/-! ### LOAD and STORE (42_load_store.md R120, R121) -/

/-- Settles O29: LOAD writes one register, then advances the PC. -/
theorem loadMovesTheEffectiveValue : Obligations.LoadMovesTheEffectiveValue := by
  unfold Obligations.LoadMovesTheEffectiveValue
  intro r m b s
  exact ⟨loadIn config r m b s, rfl, advancePc_setReg_reg config _ r _ s, advancePc_setReg_pc_frame config _ r _ s⟩

/-- Settles O30: STORE writes one byte, then advances the PC, which the byte may be. -/
theorem storeWritesTheEffectiveAddress : Obligations.StoreWritesTheEffectiveAddress := by
  unfold Obligations.StoreWritesTheEffectiveAddress
  intro r m b s
  refine ⟨storeIn config r m b s, rfl, fun hne => advancePc_write_of_ne config _ _ s hne, fun heq => ?pc,
    advancePc_write_frame config _ _ _ s⟩
  case pc =>
    rw [storeIn, heq]
    exact advancePc_write_pcAddr_pc config _ _ s

/-- Settles O31: the three instructions write a byte, here to the PC cell, and advance the PC. -/
theorem pcCellWriteUnderEachReading : Obligations.PcCellWriteUnderEachReading := by
  unfold Obligations.PcCellWriteUnderEachReading
  refine ⟨fun c r m b s heq => ?store, fun c k s => ⟨?set0, ?set1⟩, rfl⟩
  case store =>
    rw [effectIn, storeIn, heq]
    exact advancePc_write_pcAddr_pc c _ _ s
  case set0 => exact advancePc_write_pcAddr_pc c _ _ s
  case set1 => exact advancePc_write_pcAddr_pc c _ _ s

/-! ### JPD and JMD (44_jump.md R140 to R143) -/

section
variable {c : Config} {q : JumpTest} {k : Cond} {m : AddrMode} {b : Byte} {s : State}

theorem jpdIn_taken (h : jumpTaken q k s = true) : jpdIn c q k m b s = s.setPc (jumpTarget c m b s) := if_pos h

theorem jpdIn_not_taken (h : jumpTaken q k s = false) : jpdIn c q k m b s = advancePc c s.pc 2#8 s :=
  if_neg (Bool.not_eq_true _ ▸ h)

theorem jmdIn_taken (h : jumpTaken q k s = true) : jmdIn c q k m b s =
    (s.write (jumpTarget c m b s) (s.pc + 2#8)).setPc (jumpTarget c m b s + 1#8) := if_pos h

theorem jmdIn_not_taken (h : jumpTaken q k s = false) : jmdIn c q k m b s = advancePc c s.pc 2#8 s :=
  if_neg (Bool.not_eq_true _ ▸ h)

end

/-- The target of a jump in either of its two modes (R140). -/
theorem jumpTarget_eq (c : Config) (indirect : Bool) (b : Byte) (s : State) :
    jumpTarget c (if indirect then .indirect else .memory) b s = if indirect then s.read b else b := by
  cases indirect <;> rfl

theorem State.write_setPc_read (s : State) {n : Byte} (v t : Byte) (h : n ≠ pcAddr) :
    ((s.write n v).setPc t).read n = v := by
  rw [State.read_setPc, if_neg h, State.read_write_self]

theorem State.write_setPc_onlyCellsChange (s : State) (n v t : Byte) :
    OnlyCellsChange [n, pcAddr] s ((s.write n v).setPc t) := by
  intro a ha
  obtain ⟨hn, hpc⟩ : a ≠ n ∧ a ≠ pcAddr := by simpa using ha
  rw [State.read_setPc, if_neg hpc, State.read_write_of_ne s v hn]

/-- Settles O35: taken, the PC is set to the target; not taken, it is advanced. -/
theorem jpdJumpsToTheTarget : Obligations.JpdJumpsToTheTarget := by
  unfold Obligations.JpdJumpsToTheTarget
  intro q k indirect b s
  refine ⟨jpdIn config q k _ b s, rfl, ?_⟩
  rw [← jumpTarget_eq config]
  cases h : jumpTaken q k s with
  | true =>
    rw [jpdIn_taken h, if_pos rfl]
    exact ⟨State.pc_setPc s _, s.setPc_onlyCellsChange _, rfl, rfl, rfl⟩
  | false =>
    rw [jpdIn_not_taken h, if_neg Bool.false_ne_true]
    exact ⟨advancePc_only_pc config 2#8 s, advancePc_only_frame config 2#8 s⟩

/-- Settles O36: taken, the link is written and then the PC set; not taken, the PC is advanced. -/
theorem jmdStoresTheReturnAddress : Obligations.JmdStoresTheReturnAddress := by
  unfold Obligations.JmdStoresTheReturnAddress
  intro q k indirect b target s htarget
  refine ⟨jmdIn config q k _ b s, rfl, fun htaken => ?taken, fun hnot => ?not_taken, jmdIn_control ..⟩
  case taken =>
    rw [jmdIn_taken htaken, jumpTarget_eq, ← htarget]
    exact ⟨State.pc_setPc _ _, s.write_setPc_read _ _, s.write_setPc_onlyCellsChange target _ _⟩
  case not_taken =>
    rw [jmdIn_not_taken hnot]
    exact ⟨advancePc_only_pc config 2#8 s, advancePc_only_onlyCellsChange config 2#8 s⟩

/-! ### SKP0, SKP1, SET0 and SET1 (45_skip_set.md R150 to R153) -/

/-- Bit k of a byte as a digit of its value. -/
theorem getLsbD_eq_decide (x : Byte) (k : Nat) : x.getLsbD k = decide (x.toNat / 2 ^ k % 2 = 1) := by
  rw [← BitVec.testBit_toNat, Nat.testBit_eq_decide_div_mod_eq]

theorem skipOn_pc (c : Config) (skip : Bool) (s : State) :
    (skipOn c skip s).pc = s.pc + if skip then 4#8 else 2#8 := advancePc_only_pc c _ s

/-- Settles O37: a skip advances the PC by 4 or 2 as the bit, a digit of the byte's value, says. -/
theorem skipsTestOneBit : Obligations.SkipsTestOneBit := by
  unfold Obligations.SkipsTestOneBit
  intro k n s hk
  refine ⟨⟨skp0In config k n s, rfl, ?zero, advancePc_only_frame config _ s⟩,
    ⟨skp1In config k n s, rfl, ?one, advancePc_only_frame config _ s⟩⟩
  case zero =>
    rw [skp0In, skipOn_pc, getLsbD_eq_decide]
    obtain h | h := Nat.mod_two_eq_zero_or_one ((s.read n).toNat / 2 ^ k) <;> simp [h]
  case one =>
    rw [skp1In, skipOn_pc, getLsbD_eq_decide]
    simp only [decide_eq_true_eq]

theorem bitMask_getLsbD {k : Nat} (hk : k < 8) (j : Nat) : (bitMask k).getLsbD j = decide (j = k) := by
  have hpow : bitMask k = BitVec.twoPow 8 k := rfl
  rw [hpow, BitVec.getLsbD_twoPow]
  simp [hk, eq_comm]

/-- The byte with one bit set to a value: what SET1 and SET0 write (R152, R153). -/
def withBit (value : Bool) (k : Nat) (x : Byte) : Byte := if value then x ||| bitMask k else x &&& ~~~(bitMask k)

theorem withBit_getLsbD (value : Bool) {k j : Nat} (x : Byte) (hk : k < 8) (hj : j < 8) :
    (withBit value k x).getLsbD j = if j = k then value else x.getLsbD j := by
  cases value with
  | true =>
    rw [withBit, if_pos rfl, BitVec.getLsbD_or, bitMask_getLsbD hk]
    by_cases h : j = k <;> simp [h]
  | false =>
    rw [withBit, if_neg Bool.false_ne_true, BitVec.getLsbD_and, BitVec.getLsbD_not, bitMask_getLsbD hk]
    by_cases h : j = k <;> simp [h, hj]

/-- SET1 and SET0 are one operation with the value of the bit. -/
theorem exec_set (value : Bool) (k : Nat) (n : Byte) (s : State) :
    exec (if value then .set1 k n else .set0 k n) s = .next (modifyByte config n (withBit value k (s.read n)) s) := by
  cases value <;> rfl

/-- Settles O38: the byte with those bits is the one SET writes. -/
theorem setsWriteOneBit : Obligations.SetsWriteOneBit := by
  unfold Obligations.SetsWriteOneBit
  intro value k n v s hk hbits
  obtain rfl : v = withBit value k (s.read n) :=
    BitVec.eq_of_getLsbD_eq fun j hj => (hbits j hj).trans (withBit_getLsbD value _ hk hj).symm
  refine ⟨_, exec_set value k n s, fun hne => advancePc_write_of_ne config _ _ s hne, fun heq => ?pc,
    advancePc_write_frame config _ _ _ s⟩
  case pc =>
    subst heq
    exact advancePc_write_pcAddr_pc config _ _ s

/-! ### The shifts and rotates (46_shift_rotate.md R160 to R164) -/

theorem shiftReg_reg (c : Config) (f : Byte → Byte) (r : Reg) (k : Nat) (s : State) :
    (shiftReg c f r k s).reg r = repeated f k (s.reg r) := advancePc_setReg_reg c _ r _ s

theorem shiftReg_pc_frame (c : Config) (f : Byte → Byte) (r : Reg) (k : Nat) (s : State) :
    (shiftReg c f r k s).pc = s.pc + 1#8 ∧ OnlyCellsChange [regAddr r, pcAddr] s (shiftReg c f r k s) ∧
      SameControl s (shiftReg c f r k s) := advancePc_setReg_pc_frame c _ r _ s

/-- Settles O39: a place to the right halves the signed value, rounding down. -/
theorem sftrDividesBySignedPowers : Obligations.SftrDividesBySignedPowers := by
  unfold Obligations.SftrDividesBySignedPowers
  intro r k s _
  refine ⟨sftrIn config r k s, rfl, ?quotient, shiftReg_pc_frame config _ r k s⟩
  case quotient => rw [sftrIn, shiftReg_reg, repeated_shiftRightOnce_toInt]

/-- Settles O40: a place to the left doubles the value modulo 256. -/
theorem sftlMultipliesByPowers : Obligations.SftlMultipliesByPowers := by
  unfold Obligations.SftlMultipliesByPowers
  intro r k s _
  refine ⟨sftlIn config r k s, rfl, ?product, shiftReg_pc_frame config _ r k s⟩
  case product => rw [sftlIn, shiftReg_reg, repeated_shiftLeftOnce_toNat]

/-- Settles O41: a place rotates every bit by one position. -/
theorem rotatesMoveEachBit : Obligations.RotatesMoveEachBit := by
  unfold Obligations.RotatesMoveEachBit
  intro r k s _
  refine ⟨⟨rotlIn config r k s, rfl, fun j hj => ?left, shiftReg_pc_frame config _ r k s⟩,
    ⟨rotrIn config r k s, rfl, fun j hj => ?right, shiftReg_pc_frame config _ r k s⟩⟩
  case left => rw [rotlIn, shiftReg_reg, repeated_rotateLeftOnce_bit k _ j hj]
  case right => rw [rotrIn, shiftReg_reg, repeated_rotateRightOnce_bit k _ j hj]

/-- Half a turn is the same in both directions: bit j comes from bit j + 4 modulo 8. -/
theorem rotateLeft_four_eq_rotateRight_four (v : Byte) :
    repeated rotateLeftOnce 4 v = repeated rotateRightOnce 4 v := by
  refine BitVec.eq_of_getLsbD_eq fun j hj => ?_
  have hleft := repeated_rotateLeftOnce_bit 4 v ((j + 4) % 8) (Nat.mod_lt _ (by decide))
  have hturn : ((j + 4) % 8 + 4) % 8 = j := by omega
  rw [repeated_rotateRightOnce_bit 4 v j hj, ← hleft, hturn]

theorem rotateRight_rotateLeft (k : Nat) (v : Byte) :
    repeated rotateRightOnce k (repeated rotateLeftOnce k v) = v :=
  BitVec.eq_of_getLsbD_eq fun j hj =>
    (repeated_rotateRightOnce_bit k _ j hj).trans (repeated_rotateLeftOnce_bit k v j hj)

/-- Settles O42: both facts are about the repeated rotation of the register's byte. -/
theorem rotatesUndoEachOther : Obligations.RotatesUndoEachOther := by
  unfold Obligations.RotatesUndoEachOther
  refine ⟨fun r s => ?half, fun r k s t u hleft hright => ?undo⟩
  case half =>
    rw [exec_effectIn, exec_effectIn, effectIn, effectIn, rotlIn, rotrIn, shiftReg, shiftReg,
      rotateLeft_four_eq_rotateRight_four]
  case undo =>
    obtain rfl : rotlIn config r k s = t := by simpa [exec_effectIn, effectIn] using hleft
    obtain rfl : rotrIn config r k (rotlIn config r k s) = u := by simpa [exec_effectIn, effectIn] using hright
    rw [rotrIn, shiftReg_reg, rotlIn, shiftReg_reg, rotateRight_rotateLeft]

/-! ### HALT (47_noop_halt.md R171) -/

/-- Settles O44: HALT advances the PC of the machine it has halted, which no trigger changes. -/
theorem haltStopsAfterAdvancing : Obligations.HaltStopsAfterAdvancing := by
  unfold Obligations.HaltStopsAfterAdvancing
  intro s
  exact ⟨haltIn config s, rfl, rfl, advancePc_only_pc config 1#8 s.halt,
    advancePc_only_onlyCellsChange config 1#8 s.halt, rfl, rfl,
    core_run_of_stepIn_eq (stepIn_halted config (s := haltIn config s) rfl), rfl⟩

end Sys2Proof.Machine

/-! ### What an instruction writes (10_state.md R13, R15, R17, R19) -/

namespace Sys2Proof.Machine

theorem jpdIn_onlyCellsChange (c : Config) (q : JumpTest) (k : Cond) (m : AddrMode) (b : Byte) (s : State) :
    OnlyCellsChange [pcAddr] s (jpdIn c q k m b s) := by
  cases h : jumpTaken q k s with
  | true => rw [jpdIn_taken h]; exact s.setPc_onlyCellsChange _
  | false => rw [jpdIn_not_taken h]; exact advancePc_only_onlyCellsChange c 2#8 s

theorem jmdIn_onlyCellsChange (c : Config) (q : JumpTest) (k : Cond) (m : AddrMode) (b : Byte) (s : State) :
    OnlyCellsChange ((storedAddress c (.jmd q k m b) s).toList ++ [pcAddr]) s (jmdIn c q k m b s) := by
  cases h : jumpTaken q k s with
  | true =>
    rw [jmdIn_taken h, storedAddress, if_pos h]
    exact s.write_setPc_onlyCellsChange _ _ _
  | false =>
    rw [jmdIn_not_taken h, storedAddress, if_neg (Bool.not_eq_true _ ▸ h)]
    exact advancePc_only_onlyCellsChange c 2#8 s

/-- Every instruction, under every configuration, writes only its cells. -/
theorem effectIn_onlyCellsChange (c : Config) (i : Instr) (s : State) :
    OnlyCellsChange (writtenCells c i s) s (effectIn c i s) := by
  have loaded (k : Byte) (r : Reg) (v : Byte) := advancePc_setReg_onlyCellsChange c k r v s
  have written (n v : Byte) := advancePc_write_onlyCellsChange c 2#8 n v s
  cases i with
  | halt => exact advancePc_only_onlyCellsChange c 1#8 s.halt
  | noop => exact advancePc_only_onlyCellsChange c 1#8 s
  | sftr r n => exact loaded _ _ _
  | rotr r n => exact loaded _ _ _
  | sftl r n => exact loaded _ _ _
  | rotl r n => exact loaded _ _ _
  | set0 k n => exact written _ _
  | set1 k n => exact written _ _
  | skp0 k n => exact advancePc_only_onlyCellsChange c _ s
  | skp1 k n => exact advancePc_only_onlyCellsChange c _ s
  | jpd q k m b => exact jpdIn_onlyCellsChange c q k m b s
  | jmd q k m b => exact jmdIn_onlyCellsChange c q k m b s
  | or m b => exact loaded _ _ _
  | and m b => exact loaded _ _ _
  | lneg m b => exact loaded _ _ _
  | add r m b => exact addToReg_onlyCellsChange c r _ s
  | sub r m b => exact addToReg_onlyCellsChange c r _ s
  | load r m b => exact loaded _ _ _
  | store r m b => exact written _ _

/-- Settles O45: the frame of each instruction, and what it leaves of RUN, AR and DM. -/
theorem instructionsWriteOnlyTheirCells : Obligations.InstructionsWriteOnlyTheirCells := by
  unfold Obligations.InstructionsWriteOnlyTheirCells
  intro i s
  exact ⟨effectIn config i s, exec_effectIn i s, effectIn_onlyCellsChange config i s, effectIn_ar config i s,
    effectIn_dm config i s, effectIn_run config i s⟩

theorem mem_writtenCells_iff {c : Config} {i : Instr} {s : State} {a : Byte} : a ∈ writtenCells c i s ↔
    (∃ r, destination i = some r ∧ regAddr r = a) ∨ (∃ r, flagsOf i = some r ∧ flagAddr r = a) ∨
      storedAddress c i s = some a ∨ a = pcAddr := by
  simp [writtenCells]

theorem regAddr_injective : Function.Injective regAddr := by
  intro r q
  cases r <;> cases q <;> decide

theorem flagAddr_injective : Function.Injective flagAddr := by
  intro r q
  cases r <;> cases q <;> decide

/-- A cell that an instruction changed is one of its cells (R13, R17). -/
theorem changed_cases {i : Instr} {s t : State} (hexec : exec i s = .next t) {a : Byte} (h : t.read a ≠ s.read a) :
    (∃ r, destination i = some r ∧ regAddr r = a) ∨ (∃ r, flagsOf i = some r ∧ flagAddr r = a) ∨
      storedAddress config i s = some a ∨ a = pcAddr := by
  obtain rfl : effectIn config i s = t := by simpa [exec_effectIn] using hexec
  exact mem_writtenCells_iff.mp (not_imp_comm.mp (effectIn_onlyCellsChange config i s a) h)

/-- A changed cell that is no register's, no flag cell and not the PC's is the address stored to. -/
theorem stored_of_changed {i : Instr} {s t : State} (hexec : exec i s = .next t) {a : Byte}
    (hreg : ∀ r, regAddr r ≠ a) (hflag : ∀ r, flagAddr r ≠ a) (hpc : a ≠ pcAddr) (h : t.read a ≠ s.read a) :
    storedAddress config i s = some a := by
  obtain ⟨r, -, hr⟩ | ⟨r, -, hr⟩ | hstored | ha := changed_cases hexec h
  · exact absurd hr (hreg r)
  · exact absurd hr (hflag r)
  · exact hstored
  · exact absurd ha hpc

theorem regAddr_ne_outAddr (r : Reg) : regAddr r ≠ outAddr := by cases r <;> decide
theorem flagAddr_ne_outAddr (r : Reg) : flagAddr r ≠ outAddr := by cases r <;> decide
theorem regAddr_ne_inAddr (r : Reg) : regAddr r ≠ inAddr := by cases r <;> decide
theorem flagAddr_ne_inAddr (r : Reg) : flagAddr r ≠ inAddr := by cases r <;> decide

/-- Settles O46: of the cells an instruction may write, only the listed ones can be the changed one. -/
theorem registersAndFlagsChangeOnlyAsListed : Obligations.RegistersAndFlagsChangeOnlyAsListed := by
  unfold Obligations.RegistersAndFlagsChangeOnlyAsListed
  intro i s t hexec q
  refine ⟨fun h => ?flag, fun h => ?reg, stored_of_changed hexec regAddr_ne_outAddr flagAddr_ne_outAddr (by decide),
    stored_of_changed hexec regAddr_ne_inAddr flagAddr_ne_inAddr (by decide)⟩
  case flag =>
    obtain ⟨r, -, hr⟩ | ⟨r, hflags, hr⟩ | hstored | hpc := changed_cases hexec h
    · exact absurd hr (regAddr_ne_flagAddr q r)
    · exact .inl (flagAddr_injective hr ▸ hflags)
    · exact .inr hstored
    · exact absurd hpc (flagAddr_ne_pcAddr q)
  case reg =>
    obtain ⟨r, hdest, hr⟩ | ⟨r, -, hr⟩ | hstored | hpc := changed_cases hexec h
    · exact .inl (regAddr_injective hr ▸ hdest)
    · exact absurd hr (flagAddr_ne_regAddr r q)
    · exact .inr hstored
    · exact absurd hpc (regAddr_ne_pcAddr q)

/-! ### The program counter after an instruction (R15, R95) -/

/-- The instruction is a skip, which may advance the PC past the instruction after it. -/
def isSkip : Instr → Bool
  | .skp0 _ _ => true
  | .skp1 _ _ => true
  | _ => false

/-- An instruction that neither jumps, skips nor stores to address 3 advances the PC by its length. -/
theorem effectIn_pc (c : Config) {i : Instr} {s : State} (hjump : jumps i s = false)
    (hstore : storedAddress c i s ≠ some pcAddr) (hskip : isSkip i = false) :
    (effectIn c i s).pc = s.pc + BitVec.ofNat 8 (encode i).length := by
  have loaded (k : Byte) (r : Reg) (v : Byte) := advancePc_setReg_pc c k r v s
  have written (v : Byte) {n : Byte} (h : some n ≠ some pcAddr) :=
    (advancePc_write_of_ne c 2#8 v s (mt (congrArg some) h)).2
  cases i with
  | halt => exact advancePc_only_pc c 1#8 s.halt
  | noop => exact advancePc_only_pc c 1#8 s
  | sftr r n => exact loaded ..
  | rotr r n => exact loaded ..
  | sftl r n => exact loaded ..
  | rotl r n => exact loaded ..
  | set0 k n => exact written _ hstore
  | set1 k n => exact written _ hstore
  | skp0 k n => cases hskip
  | skp1 k n => cases hskip
  | jpd q k m b => exact (congrArg State.pc (jpdIn_not_taken hjump)).trans (advancePc_only_pc c 2#8 s)
  | jmd q k m b => exact (congrArg State.pc (jmdIn_not_taken hjump)).trans (advancePc_only_pc c 2#8 s)
  | or m b => exact loaded ..
  | and m b => exact loaded ..
  | lneg m b => exact loaded ..
  | add r m b => exact addToReg_pc c r _ s
  | sub r m b => exact addToReg_pc c r _ s
  | load r m b => exact loaded ..
  | store r m b => exact written _ hstore

/-- Settles O47: the instruction is none of the three kinds that leave the PC elsewhere. -/
theorem pcAdvancesByTheLength : Obligations.PcAdvancesByTheLength := by
  unfold Obligations.PcAdvancesByTheLength
  intro i s t hexec hjump hstore hskip
  obtain rfl : effectIn config i s = t := by simpa [exec_effectIn] using hexec
  refine effectIn_pc config hjump hstore ?_
  cases i with
  | skp0 k n => exact absurd rfl (hskip k n).1
  | skp1 k n => exact absurd rfl (hskip k n).2
  | _ => rfl

/-! ### Where the configuration matters (00_scope.md R5) -/

/-- AdvancePC on a PC cell that has not been written is the same under every base (R95). -/
theorem advancePc_eq_setPc {c : Config} {p : Byte} (k : Byte) {s : State} (h : s.pc = p) :
    advancePc c p k s = s.setPc (p + k) := by
  rw [advancePc, advanceBase_of_pc h]

theorem advancePc_congr (c c' : Config) {p : Byte} (k : Byte) {s : State} (h : s.pc = p) :
    advancePc c p k s = advancePc c' p k s := by
  rw [advancePc_eq_setPc k h, advancePc_eq_setPc k h]

theorem advancePc_setReg_congr (c c' : Config) (k : Byte) (r : Reg) (v : Byte) (s : State) :
    advancePc c s.pc k (s.setReg r v) = advancePc c' s.pc k (s.setReg r v) :=
  advancePc_congr c c' k (by rw [State.pc, State.read_setReg, if_neg (pcAddr_ne_regAddr r), State.pc])

theorem advancePc_write_congr (c c' : Config) (k v : Byte) {n : Byte} (s : State) (h : n ≠ pcAddr) :
    advancePc c s.pc k (s.write n v) = advancePc c' s.pc k (s.write n v) :=
  advancePc_congr c c' k (s.read_write_of_ne v h.symm)

set_option maxRecDepth 10000 in
theorem and_0xFC_of_shiftRight_two : ∀ old : Byte, old >>> 2 = 0#8 → old &&& 0xFC#8 = 0#8 := by decide

/-- A flag cell without bits 7:2 takes the same byte under both readings of OC_WRITE (R113). -/
theorem flagCellValue_of_high_zero (c : Config) {old : Byte} (o : AdderOut) (h : old >>> 2 = 0#8) :
    flagCellValue c old o = flagByte o := by
  cases hc : c.ocWrite <;> simp [flagCellValue, hc, and_0xFC_of_shiftRight_two old h]

theorem addToReg_congr (c c' : Config) (r : Reg) (v : Byte) {s : State} (h : s.flagCell r >>> 2 = 0#8) :
    addToReg c r v s = addToReg c' r v s := by
  have hflag : (s.setReg r (addFlags (s.reg r) v).result).flagCell r = s.flagCell r := by
    rw [State.flagCell, State.read_setReg, if_neg (flagAddr_ne_regAddr r r), State.flagCell]
  rw [addToReg, addToReg, writeFlags, writeFlags, hflag, flagCellValue_of_high_zero c _ h,
    flagCellValue_of_high_zero c' _ h]
  refine advancePc_congr c c' 2#8 ?_
  rw [State.pc, State.read_write_of_ne _ _ (pcAddr_ne_flagAddr r), State.read_setReg, if_neg (pcAddr_ne_regAddr r),
    State.pc]

/-- Only the IMMEDIATE row of the resolver depends on STORE_IMM_EA (R100). -/
theorem effectiveAddress_congr (c c' : Config) {m : AddrMode} (b : Byte) (s : State) (h : m ≠ .immediate) :
    effectiveAddress c m b s = effectiveAddress c' m b s := by
  cases m with
  | immediate => exact absurd rfl h
  | _ => rfl

theorem jumpTarget_congr (c c' : Config) {m : AddrMode} (b : Byte) (s : State) (h : m.jumpable = true) :
    jumpTarget c m b s = jumpTarget c' m b s :=
  effectiveAddress_congr c c' b s fun himm => absurd h (himm ▸ Bool.false_ne_true)

theorem jpdIn_congr (c c' : Config) (q : JumpTest) (k : Cond) {m : AddrMode} (b : Byte) (s : State)
    (h : m.jumpable = true) : jpdIn c q k m b s = jpdIn c' q k m b s := by
  rw [jpdIn, jpdIn, jumpTarget_congr c c' b s h, advancePc_congr c c' 2#8 rfl]

theorem jmdIn_congr (c c' : Config) (q : JumpTest) (k : Cond) {m : AddrMode} (b : Byte) (s : State)
    (h : m.jumpable = true) : jmdIn c q k m b s = jmdIn c' q k m b s := by
  rw [jmdIn, jmdIn, jumpTarget_congr c c' b s h, advancePc_congr c c' 2#8 rfl]

/-- An instruction that is none of the forms a parameter bears on has one effect under every configuration. -/
theorem effectIn_congr_config (c : Config) {i : Instr} {s : State} (hwf : i.wellFormed = true)
    (hform : parameterForm i s = false) : effectIn config i s = effectIn c i s := by
  have loaded (k : Byte) (r : Reg) (v : Byte) := advancePc_setReg_congr config c k r v s
  have written (v : Byte) {n : Byte} (h : (n == pcAddr) = false) :=
    advancePc_write_congr config c 2#8 v s (beq_eq_false_iff_ne.mp h)
  cases i with
  | halt => exact advancePc_congr config c 1#8 (s := s.halt) rfl
  | noop => exact advancePc_congr config c 1#8 rfl
  | sftr r n => exact loaded ..
  | rotr r n => exact loaded ..
  | sftl r n => exact loaded ..
  | rotl r n => exact loaded ..
  | set0 k n => exact written _ hform
  | set1 k n => exact written _ hform
  | skp0 k n => exact advancePc_congr config c _ rfl
  | skp1 k n => exact advancePc_congr config c _ rfl
  | jpd q k m b => exact jpdIn_congr config c q k b s hwf
  | jmd q k m b => exact jmdIn_congr config c q k b s hwf
  | or m b => exact loaded ..
  | and m b => exact loaded ..
  | lneg m b => exact loaded ..
  | add r m b => exact addToReg_congr config c r _ (bne_eq_false_iff_eq.mp hform)
  | sub r m b => exact addToReg_congr config c r _ (bne_eq_false_iff_eq.mp hform)
  | load r m b => exact loaded ..
  | store r m b =>
    obtain ⟨hmode, haddress⟩ := Bool.or_eq_false_iff.mp hform
    rw [effectIn, effectIn, storeIn, storeIn, ← effectiveAddress_congr config c b s (beq_eq_false_iff_ne.mp hmode)]
    exact written _ haddress

/-- Outside the reserved bytes a pair decodes to the same instruction under every configuration (R76). -/
theorem decodePair_congr_config {c : Config} (c' : Config) {b1 b2 : Byte} {i : Instr}
    (h : decodePair c b1 b2 = .ok i) (hreserved : reservedByte b1 = false) : decodePair c' b1 b2 = .ok i := by
  obtain ⟨hz, rfl⟩ | ⟨hbyte, -⟩ | ⟨-, -, hencoded⟩ := decodePair_cases h
  · exact decodePair_formatZ c' b2 hz
  · exact absurd hbyte (by simp [hreserved])
  · exact hencoded.decodePair_eq c'

/-- Settles O50: the pair decodes to the same instruction, which has the same effect. -/
theorem parametersMatterOnlyAtTheirForms : Obligations.ParametersMatterOnlyAtTheirForms := by
  unfold Obligations.ParametersMatterOnlyAtTheirForms
  intro c s i rest hdecode hreserved hform
  rw [decode, decodeWith_fetch] at hdecode
  have hpair := ok_of_map_eq_ok hdecode
  rw [step_stepIn]
  cases hrun : s.run with
  | halted => rw [stepIn_halted config hrun, stepIn_halted c hrun]
  | running =>
    rw [stepIn_of_decodePair hrun hpair, stepIn_of_decodePair hrun (decodePair_congr_config c hpair hreserved),
      effectIn_congr_config c (decodePair_wellFormed hpair) hform]

/-! ### Instructions in sequence (20_memory.md R53, 44_jump.md R142, R143, 45_skip_set.md R153) -/

/-- Away from the PC cell a SET leaves the byte with the bit at its value. -/
theorem modifyByte_withBit_getLsbD (value : Bool) {k : Nat} {n : Byte} (s : State) (hk : k < 8) (h : n ≠ pcAddr) :
    ((modifyByte config n (withBit value k (s.read n)) s).read n).getLsbD k = value := by
  obtain ⟨hread, -⟩ := advancePc_write_of_ne config 2#8 (withBit value k (s.read n)) s h
  rw [modifyByte, hread, withBit_getLsbD value _ hk hk, if_pos rfl]

/-- Settles O51: the SKP finds the bit as the SET before it left it. -/
theorem setThenSkipAlwaysSkips : Obligations.SetThenSkipAlwaysSkips := by
  unfold Obligations.SetThenSkipAlwaysSkips
  intro k n s hk hne
  refine ⟨⟨_, _, exec_set true k n s, rfl, ?one⟩, ⟨_, _, exec_set false k n s, rfl, ?zero⟩⟩
  case one => rw [skp1In, skipOn_pc, modifyByte_withBit_getLsbD true s hk hne, if_pos rfl]
  case zero => rw [skp0In, skipOn_pc, modifyByte_withBit_getLsbD false s hk hne]; rfl

/-- Settles O52: the cell holds the link, which is the target of the indirect JPD. -/
theorem indirectJumpReturnsFromJmd : Obligations.IndirectJumpReturnsFromJmd := by
  unfold Obligations.IndirectJumpReturnsFromJmd
  intro k k' n s hne
  refine ⟨(s.write n (s.pc + 2#8)).setPc (n + 1#8), rfl, State.pc_setPc _ _, fun u hlink => ?_⟩
  refine ⟨u.setPc (u.read n), rfl, ?_⟩
  rw [State.pc_setPc, hlink, s.write_setPc_read _ _ hne]

theorem fetch_head? (s : State) : (fetch s).head? = some (s.read s.pc) := by
  simp only [fetch]
  split <;> rfl

theorem fetch_of_width_two {s : State} (h : instrWidth (s.read s.pc) = 2) :
    fetch s = [s.read s.pc, s.read (s.pc + 1#8)] := by
  simp [fetch, h]

/-- Settles O53: the fetch reads at p + 2 and p + 3, and one of them is the address stored to. -/
theorem storeIsSeenByTheNextFetch : Obligations.StoreIsSeenByTheNextFetch := by
  unfold Obligations.StoreIsSeenByTheNextFetch
  intro r m b s hne
  obtain ⟨hread, hpc⟩ := advancePc_write_of_ne config 2#8 (s.reg r) s hne
  refine ⟨storeIn config r m b s, rfl, fun hfirst => ?first, fun hoperand hwidth => ?operand⟩
  case first =>
    rw [fetch_head?, storeIn, hpc, ← hfirst, hread]
  case operand =>
    have hnext : (storeIn config r m b s).pc + 1#8 = effectiveAddress config m b s := by
      rw [storeIn, hpc, hoperand, BitVec.add_assoc]; rfl
    rw [fetch_of_width_two hwidth, hnext, storeIn, hread]

/-- 0xE3..0xE7 are the five unconditional direct JPDs, one for each condition (R64, R81). -/
theorem exists_encodeFirst_jpd {b1 : Byte} (hlo : 0xE3 ≤ b1.toNat) (hhi : b1.toNat ≤ 0xE7) (b2 : Byte) :
    ∃ k, b1 = encodeFirst (.jpd .unconditional k .memory b2) := by
  have hbytes : b1 = 0xE3#8 ∨ b1 = 0xE4#8 ∨ b1 = 0xE5#8 ∨ b1 = 0xE6#8 ∨ b1 = 0xE7#8 := by
    simp only [BitVec.toNat_eq, BitVec.toNat_ofNat]; omega
  obtain rfl | rfl | rfl | rfl | rfl := hbytes
  · exact ⟨.nonZero, rfl⟩
  · exact ⟨.zero, rfl⟩
  · exact ⟨.lessThanZero, rfl⟩
  · exact ⟨.positive, rfl⟩
  · exact ⟨.positiveNonZero, rfl⟩

/-- Settles O54: the jump writes to the PC what the PC holds, which in a canonical state is no change. -/
theorem jumpToItselfNeverHalts : Obligations.JumpToItselfNeverHalts := by
  unfold Obligations.JumpToItselfNeverHalts
  intro s hinv hrun hlo hhi hself
  obtain ⟨k, hfirst⟩ := exists_encodeFirst_jpd hlo hhi s.pc
  have hpair : decodePair config (s.read s.pc) (s.read (s.pc + 1#8)) = .ok (.jpd .unconditional k .memory s.pc) := by
    rw [hfirst, hself]
    exact decodePair_encodeFirst config (i := .jpd .unconditional k .memory s.pc) rfl s.pc
  refine core_run_of_stepIn_eq ?_
  calc stepIn config s = s.setPc s.pc := stepIn_of_decodePair hrun hpair
    _ = s := State.write_read_self hinv pcAddr

end Sys2Proof.Machine

/-! ### The input operations and the closed console (60_exceptions.md R183, R196 to R198) -/

namespace Sys2Proof.Machine

/-- Flipping one bit, as `toggleInputBit` does (R197). -/
theorem xor_bitMask_getLsbD {n : Nat} (x : Byte) (hn : n < 8) (j : Nat) :
    (x ^^^ bitMask n).getLsbD j = if j = n then !x.getLsbD j else x.getLsbD j := by
  rw [BitVec.getLsbD_xor, bitMask_getLsbD hn]
  by_cases h : j = n <;> simp [h]

theorem consoleOp_toggleInput {n : Nat} (s : State) (hn : n < 8) :
    consoleOp (.toggleInputBit n) s = { state := s.write inAddr (s.input ^^^ bitMask n), reply := .done } :=
  if_pos hn

theorem consoleOp_toggleInput_refused {n : Nat} (s : State) (hn : 8 ≤ n) :
    consoleOp (.toggleInputBit n) s = { state := s, reply := .callRefused } :=
  if_neg hn.not_gt

@[simp] theorem State.write_inAddr_input (s : State) (v : Byte) : (s.write inAddr v).input = v :=
  s.read_write_self inAddr v

/-- Settles O56: each operation is one write of IN, or the refusal. -/
theorem inputOperationsWriteOnlyInput : Obligations.InputOperationsWriteOnlyInput := by
  unfold Obligations.InputOperationsWriteOnlyInput
  intro s
  have written (v : Byte) : OnlyCellsChange [inAddr] s (s.write inAddr v) := s.write_onlyCellsChange inAddr v
  refine ⟨fun v => ⟨rfl, s.write_inAddr_input v, written v, rfl, rfl⟩, fun n hn => ?toggle,
    fun n hn => consoleOp_toggleInput_refused s hn, rfl, s.write_inAddr_input 0#8, written 0#8, rfl, rfl⟩
  case toggle =>
    rw [consoleOp_toggleInput s hn]
    refine ⟨rfl, fun j _ => ?_, written _, rfl, rfl⟩
    rw [s.write_inAddr_input, xor_bitMask_getLsbD _ hn]

theorem consoleReport_of_refused {op : ConsoleOp} {s : State}
    (h : consoleOp op s = { state := s, reply := .illegalConsoleOperation }) :
    consoleReport op s = [.illegalConsoleOperation] := by
  simp [consoleReport, h]

theorem onlyCellsChange_refl (cells : List Byte) (s : State) : OnlyCellsChange cells s s := fun _ _ => rfl

/-- While RUNNING an operation that is refused leaves every cell and AR. -/
theorem onlyHalted_frame_running {s : State} (h : s.run = .running) (a : Answer) :
    OnlyCellsChange [inAddr] s (onlyHalted s a).state ∧ (onlyHalted s a).state.ar = s.ar := by
  rw [onlyHalted_running h]
  exact ⟨onlyCellsChange_refl _ s, rfl⟩

/-- While RUNNING no operation changes a cell but IN, or AR (20_memory.md R51). -/
theorem consoleOp_frame_running (op : ConsoleOp) {s : State} (h : s.run = .running) :
    OnlyCellsChange [inAddr] s (consoleOp op s).state ∧ (consoleOp op s).state.ar = s.ar := by
  have written (v : Byte) : OnlyCellsChange [inAddr] s (s.write inAddr v) := s.write_onlyCellsChange inAddr v
  cases op with
  | start => exact ⟨fun _ _ => rfl, rfl⟩
  | stop => exact ⟨fun _ _ => rfl, rfl⟩
  | writeInputRegister v => exact ⟨written v, rfl⟩
  | clearInputRegister => exact ⟨written 0#8, rfl⟩
  | toggleInputBit n =>
    obtain hn | hn := lt_or_ge n 8
    · rw [consoleOp_toggleInput s hn]; exact ⟨written _, rfl⟩
    · rw [consoleOp_toggleInput_refused s hn]; exact ⟨onlyCellsChange_refl _ s, rfl⟩
  | getAddressRegister => exact ⟨onlyCellsChange_refl _ s, rfl⟩
  | snapshot => exact ⟨onlyCellsChange_refl _ s, rfl⟩
  | setAddressRegister => exact onlyHalted_frame_running h _
  | readMemoryAtAddressRegister => exact onlyHalted_frame_running h _
  | storeInputToAddressRegister => exact onlyHalted_frame_running h _
  | loadCell a v => exact onlyHalted_frame_running h _

/-- Settles O59: four operations are refused while RUNNING, and the others write IN or RUN at most. -/
theorem runningMachineIsClosedToTheConsole : Obligations.RunningMachineIsClosedToTheConsole := by
  unfold Obligations.RunningMachineIsClosedToTheConsole
  intro s hrun
  refine ⟨fun op hop => ?refused, fun op => ?frame⟩
  case refused =>
    have hrefused : consoleOp op s = { state := s, reply := .illegalConsoleOperation } := by
      obtain rfl | rfl | rfl | ⟨a, v, rfl⟩ := hop
      · exact onlyHalted_running hrun _
      · exact onlyHalted_running hrun _
      · exact onlyHalted_running hrun _
      · exact onlyHalted_running hrun _
    exact ⟨hrefused, consoleReport_of_refused hrefused⟩
  case frame =>
    obtain ⟨hcells, har⟩ := consoleOp_frame_running op hrun
    refine ⟨hcells, har, fun hstop => ?_⟩
    obtain rfl | hstart := eq_or_ne op .start
    · rfl
    · exact (consoleOp_run s hstart hstop).trans hrun

/-! ### Entering a program by hand (60_exceptions.md R202) -/

theorem afterEvents_append (es fs : List HostEvent) (s : State) :
    afterEvents (es ++ fs) s = afterEvents fs (afterEvents es s) := by
  induction es generalizing s with
  | nil => rfl
  | cons e es ih => exact ih (afterEvent e s)

/-- The state after one byte is entered by hand: it is in IN and in the cell at AR, which is stepped. -/
def State.enter (s : State) (v : Byte) : State := { (s.write inAddr v).write s.ar v with ar := s.ar + 1#8 }

@[simp] theorem State.enter_ar (s : State) (v : Byte) : (s.enter v).ar = s.ar + 1#8 := rfl

theorem State.enter_read_ar (s : State) (v : Byte) : (s.enter v).read s.ar = v :=
  (s.write inAddr v).withAr_write_read_self _ s.ar v

theorem State.enter_read_of_ne (s : State) (v : Byte) {x : Byte} (har : x ≠ s.ar) (hin : x ≠ inAddr) :
    (s.enter v).read x = s.read x := by
  rw [State.enter, State.withAr_read, State.read_write_of_ne _ v har, State.read_write_of_ne _ v hin]

theorem afterEvents_enterByte {s : State} (v : Byte) (h : s.run = .halted) :
    afterEvents (enterByte v) s = s.enter v := by
  have hstore := consoleOp_storeInput_halted (s := s.write inAddr v) h
  rw [s.write_inAddr_input] at hstore
  exact congrArg Answer.state hstore

/-- `t` is the HALTED machine `s` with the bytes in the cells from AR on, and AR after them; IN apart, no other cell is
changed. -/
structure Entered (bytes : List Byte) (s t : State) : Prop where
  halted : t.run = .halted
  ar : t.ar = s.ar + BitVec.ofNat 8 bytes.length
  stored : ∀ (k : Nat) (h : k < bytes.length), t.read (s.ar + BitVec.ofNat 8 k) = bytes[k]
  kept : ∀ x : Byte, x ≠ inAddr → (x.toNat < s.ar.toNat ∨ s.ar.toNat + bytes.length ≤ x.toNat) →
    t.read x = s.read x

theorem ne_inAddr_of_lt {x : Byte} (h : x.toNat < 255) : x ≠ inAddr := by
  rintro rfl
  exact absurd h (by decide)

theorem toNat_add_one_of_lt {x : Byte} (h : x.toNat < 255) : (x + 1#8).toNat = x.toNat + 1 := by
  rw [BitVec.toNat_add, BitVec.toNat_ofNat]
  omega

theorem add_ofNat_succ (x : Byte) (k : Nat) : x + BitVec.ofNat 8 (k + 1) = x + 1#8 + BitVec.ofNat 8 k := by
  rw [BitVec.add_assoc, Nat.add_comm, BitVec.ofNat_add]

/-- One byte more in front: the bytes after it are entered from AR + 1 on, and leave it where it is. -/
theorem Entered.cons {v : Byte} {bytes : List Byte} {s t : State} (hlt : s.ar.toNat < 255)
    (h : Entered bytes (s.enter v) t) : Entered (v :: bytes) s t := by
  obtain ⟨hhalted, har, hstored, hkept⟩ := h
  simp only [State.enter_ar, toNat_add_one_of_lt hlt] at har hstored hkept
  refine ⟨hhalted, ?ar, ?stored, ?kept⟩
  case ar => exact har.trans (add_ofNat_succ s.ar bytes.length).symm
  case stored =>
    intro k hk
    cases k with
    | zero =>
      rw [BitVec.add_zero, hkept s.ar (ne_inAddr_of_lt hlt) (.inl (Nat.lt_succ_self _)), State.enter_read_ar]
      rfl
    | succ k =>
      rw [add_ofNat_succ]
      exact hstored k (Nat.lt_of_succ_lt_succ hk)
  case kept =>
    intro x hx hout
    rw [List.length_cons] at hout
    have hne : x ≠ s.ar := by
      rintro rfl
      omega
    rw [hkept x hx (by omega), State.enter_read_of_ne s v hne hx]

/-- The bytes of a program entered one after the other, by induction on them. -/
theorem entered_enterBytes (bytes : List Byte) {s : State} (hrun : s.run = .halted)
    (hfit : s.ar.toNat + bytes.length ≤ 255) : Entered bytes s (afterEvents (bytes.flatMap enterByte) s) := by
  induction bytes generalizing s with
  | nil => exact ⟨hrun, (BitVec.add_zero _).symm, fun k hk => absurd hk (Nat.not_lt_zero k), fun x _ _ => rfl⟩
  | cons v bytes ih =>
    rw [List.length_cons] at hfit
    have hlt : s.ar.toNat < 255 := by omega
    rw [List.flatMap_cons, afterEvents_append, afterEvents_enterByte v hrun]
    refine Entered.cons hlt (ih hrun ?_)
    rw [State.enter_ar, toNat_add_one_of_lt hlt]
    omega

/-- The two operations that come first set IN and AR to the address. -/
theorem afterEvents_enterProgram {s : State} (a : Byte) (bytes : List Byte) (h : s.run = .halted) :
    afterEvents (enterProgram a bytes) s =
      afterEvents (bytes.flatMap enterByte) { s.write inAddr a with ar := a } := by
  have hset := consoleOp_setAddressRegister_halted (s := s.write inAddr a) h
  rw [s.write_inAddr_input] at hset
  exact congrArg (fun x => afterEvents (bytes.flatMap enterByte) x.state) hset

/-- Settles O60: IN and AR are set to the address, and the bytes are entered from there. -/
theorem programEnteredByHand : Obligations.ProgramEnteredByHand := by
  unfold Obligations.ProgramEnteredByHand
  intro a bytes s hrun hfit
  rw [afterEvents_enterProgram a bytes hrun]
  obtain ⟨hhalted, har, hstored, hkept⟩ :=
    entered_enterBytes bytes (s := { s.write inAddr a with ar := a }) hrun hfit
  exact ⟨hhalted, har, hstored, fun x hx hout => (hkept x hx hout).trans (s.read_write_of_ne a hx)⟩

end Sys2Proof.Machine
